-- ==== Sys2Proof/Word.lean ====
section
/-! DEFINITION. The words of the machine (00_scope R9, R10): 32-bit words, 16-bit halves, 8-bit bytes and 5-bit register
indices. Everything the spec treats as bits is a BitVec; `+`, `-`, `&&&`, `|||`, `<<<` wrap as R10 says. -/

namespace Sys2Proof

/-- A register, address or memory word: 32 bits, bit 0 least significant (R9, R10). -/
abbrev Word := BitVec 32

/-- A 16-bit immediate or offset field (30_encoding R101). -/
abbrev Half := BitVec 16

/-- One byte of RAM or of the firmware image. -/
abbrev Byte := BitVec 8

/-- A register index, general or coprocessor: a 5-bit field (30_encoding R101). -/
abbrev Reg := BitVec 5

end Sys2Proof
end

