-- ==== Sys2Proof/Config.lean ====
section
/-! DEFINITION. What an implementation fixes (00_scope R8) and the one free value of the spec. -/

namespace Sys2Proof

/-- `RESET_PC`, the virtual address of firmware offset 0 (10_state R35).
UNVERIFIED, unsafe (log 2): the source gives no number; the value is the spec's decision D1. -/
def Config.resetPc : Word := 0xBFC00000#32

/-- `RAM_SIZE`: 2 MiB (00_scope R8, 10_state R31). -/
def Config.ramSize : Nat := 0x200000

/-- `BIOS_SIZE`: 512 KiB (00_scope R8, 10_state R32). -/
def Config.biosSize : Nat := 0x80000

/-- Whether a write of that many bytes of that value to that virtual address in a HardwareRegs or IO region emits a
diagnostic. The source says both 'silently ignored' and 'diagnostic emitted' (20_memory R71, 90_conflicts C8), so the
answer is a free value: it has no body and no proof can see it. DESIGN CHOICE, safe (log 10). -/
opaque Config.deviceWriteDiag (bytes : Nat) (va value : Word) : Bool

end Sys2Proof
end

