-- ==== Sys2Proof/Machine/State.lean ====
section
/-! DEFINITION. The state of the CORE: the tuple `(R, S, PL, PC, NI, C0, RAM, BIOS, halted)` of 10_state R34, as plain data,
and the record of the last cycle's diagnostics, which is the model's own (log 9). Then the reasons a step can stop, and the
state after construction with nothing placed. -/

namespace Sys2Proof.Machine

/-- A register file of 32 words (10_state R20, R23). -/
abbrev RegFile := Vector Word 32

/-- A byte memory: (offset, byte) cells, offsets strictly rising, no cell that holds what an unlisted offset reads as. -/
abbrev Memory := List Host.Cell

/-- The pending load `PL`: an in-flight load awaiting commit (10_state R24). `(0, 0)` is empty. -/
structure PendingLoad where
  idx : Reg
  val : Word
deriving DecidableEq, Repr

/-- The result of `classify` (20_memory R63). -/
inductive RegionTag where
  | main | expansion1 | scratchpad | hardwareRegs | bios | io | unmapped
deriving DecidableEq, Repr

/-- The width of a store (20_memory R68): 1, 2 or 4 bytes. -/
inductive Width where
  | byte | half | word
deriving DecidableEq, Repr

/-- Why the engine halted (60_exceptions R181): the spec's six reasons. The names are the spec's (D27); `unhandledWrite`
also carries the value, which R181 lists in the diagnostic's information. DESIGN CHOICE, safe (log 18). -/
inductive HaltReason where
  /-- A fetch or LW at an address that is not word-aligned. -/
  | misalignedRead (va : Word)
  /-- A fetch or LW outside Main and BIOS. -/
  | unhandledRead (va pa : Word) (tag : RegionTag)
  /-- An SH or SW (`n` = 2 or 4) at a misaligned address. -/
  | misalignedWrite (va : Word) (n : Nat)
  /-- An SB, SH or SW to Expansion1, Scratchpad or Unmapped. -/
  | unhandledWrite (va pa : Word) (tag : RegionTag) (value : Word)
  /-- A word that 30_encoding R106 does not select. -/
  | unimplemented (w : Word) (opcode funct : BitVec 6)
  /-- An ADDI whose signed sum is out of range. -/
  | addiOverflow (w : Word) (operand : Word)
deriving DecidableEq, Repr

/-- A diagnostic event (60_exceptions R182, R183, R196): what was reported, without text or severity. -/
inductive Diag where
  /-- A halt and its reason (R183). -/
  | halt (reason : HaltReason)
  /-- A byte or halfword store to Main, ignored (20_memory R70). -/
  | narrowStoreIgnored (va : Word) (width : Width) (value : Word)
  /-- A store to HardwareRegs or IO, ignored (20_memory R71). -/
  | deviceWriteIgnored (va : Word) (width : Width) (value : Word)
  /-- A store to BIOS, rejected (20_memory R72). -/
  | firmwareWriteRejected (va : Word) (width : Width) (value : Word)
  /-- An LW skipped under cache isolation (20_memory R73). -/
  | loadIsolated
  /-- An SB, SH or SW skipped under cache isolation (20_memory R73). -/
  | storeIsolated (width : Width)
  /-- An MTC0 to a register other than 12 (44_coprocessor0 R170). -/
  | cop0WriteIgnored (rd : Reg)
  /-- A firmware file that is not 524288 bytes long (70_reset_and_hazards R211). -/
  | firmwareSizeRejected (size : Nat)
deriving DecidableEq, Repr

/-- The full state of the CORE (10_state R34), and the last cycle's diagnostics. -/
structure State where
  /-- `R`, the visible register file (R20). -/
  regs : RegFile
  /-- `S`, the shadow register file that stages writes (R23). -/
  shadow : RegFile
  /-- `PL`, the pending load (R24). -/
  pl : PendingLoad
  /-- `PC`, the virtual address of the next word to fetch (R25). -/
  pc : Word
  /-- `NI`, the next-instruction latch: the word the next cycle executes (R26). -/
  ni : Word
  /-- `C0`, the coprocessor-0 bank; entry 12 is the status register (R29, R30). -/
  cop0 : Vector Word 16
  /-- `RAM`, by 21-bit offset (R31). -/
  ram : Memory
  /-- `BIOS`, the firmware image, by 19-bit offset (R32). -/
  bios : Memory
  /-- `halted`, set by every halt and never cleared (R28). -/
  halted : Bool
  /-- The diagnostics emitted since the last cycle began, oldest first. The MODEL's own field: output, not a register
  (R33, 60_exceptions R196). DESIGN CHOICE, safe (log 9). -/
  diags : List Diag
deriving DecidableEq, Repr

/-- Why a step gives no next state. -/
inductive Fault where
  /-- Raised by `step` alone, when the engine is already halted: no cycle follows a halt (10_state R48, D9). It carries the
  halt reasons of the last cycle, the fetch's before the execution's (60_exceptions R185). Safe (log 8). -/
  | halted (reasons : List HaltReason)
deriving DecidableEq, Repr

/-- Why an instruction has no meaning. -/
inductive Refusal where
  /-- Raised by `exec` alone, for an instruction that is not modelled. Safe. No arm of this model raises it. -/
  | notModelled (mnemonic : String)
deriving DecidableEq, Repr

/-- The state after construction (10_state R35) with every OPEN parameter at the value the log names: general registers
zero (DESIGN CHOICE, unsafe, log 4), RAM zero (log 6), the all-zero firmware image (DESIGN CHOICE, unsafe, log 7). `PC` is RESET_PC (log 2), `NI`
the no-op (UNVERIFIED, unsafe, log 3), the coprocessor-0 bank zero, the pending load empty, the engine running (UNVERIFIED,
unsafe, log 5). -/
def State.reset : State where
  regs := Vector.replicate 32 0#32
  shadow := Vector.replicate 32 0#32
  pl := ⟨0#5, 0#32⟩
  pc := Config.resetPc
  ni := 0x00000000#32
  cop0 := Vector.replicate 16 0#32
  ram := []
  bios := []
  halted := false
  diags := []

end Sys2Proof.Machine
end

