-- ==== Sys2Proof/Machine/Address.lean ====
section
/-! DEFINITION. The address translator (20_memory R61 to R64) and the offsets of the two backed regions (R66, R67, R69). -/

namespace Sys2Proof.Machine

/-- The segment of a virtual address: `va[31:29]`. -/
def segment (va : Word) : BitVec 3 := va.extractLsb' 29 3

/-- The 32-bit region mask that the segment selects (R61, 90_conflicts C4): KSEG0 clears bit 31, KSEG1 clears bits 31 to 29,
every other segment is the identity. -/
def regionMask (va : Word) : Word :=
  if segment va = 0b100#3 then 0x7FFFFFFF#32
  else if segment va = 0b101#3 then 0x1FFFFFFF#32
  else 0xFFFFFFFF#32

/-- `translate`: total, no failure mode (R61). -/
def translateVa (va : Word) : Word := va &&& regionMask va

/-- `classify`: the first row of R63 whose condition holds. The one-sided rows are read literally (D13).
UNVERIFIED, safe (log 19). -/
def classify (pa : Word) : RegionTag :=
  if pa < 0x00800000#32 then .main
  else if 0x1F000000#32 ≤ pa ∧ pa ≤ 0x1F7FFFFF#32 then .expansion1
  else if pa < 0x1F801000#32 then .scratchpad
  else if pa < 0x1F803000#32 then .hardwareRegs
  else if 0x1FC00000#32 ≤ pa ∧ pa ≤ 0x1FC7FFFF#32 then .bios
  else if 0xFFFE0000#32 ≤ pa ∧ pa ≤ 0xFFFE0FFF#32 then .io
  else .unmapped

/-- The RAM offset of a Main physical address, word-aligned and within 2 MiB (R66); writes use the same mask (R69,
D12). UNVERIFIED, unsafe (log 12). -/
def ramOffset (pa : Word) : Nat := (pa &&& 0x001FFFFC#32).toNat

/-- The firmware offset of a BIOS physical address (R67). -/
def biosOffset (pa : Word) : Nat := (pa &&& 0x0007FFFC#32).toNat

end Sys2Proof.Machine
end

