-- ==== Sys2Proof/Syntax.lean ====
section
/-! DEFINITION. The instructions of the CORE (00_scope R2, 30_encoding R106): one constructor per row of
spec/opcode_table.json, in the table's order, with the operands its rule names. Fields an instruction's rule does not use
(30_encoding R111) are no part of it. -/

namespace Sys2Proof

/-- The eighteen instructions. Operands stand in assembler order (30_encoding R114): destination first. -/
inductive Instr where
  /-- 40_alu_immediate R130. -/
  | lui (rt : Reg) (imm : Half)
  /-- 40_alu_immediate R131. -/
  | ori (rt rs : Reg) (imm : Half)
  /-- 40_alu_immediate R132. -/
  | andi (rt rs : Reg) (imm : Half)
  /-- 40_alu_immediate R133. -/
  | addiu (rt rs : Reg) (imm : Half)
  /-- 40_alu_immediate R134. -/
  | addi (rt rs : Reg) (imm : Half)
  /-- 41_alu_register R140. -/
  | addu (rd rs rt : Reg)
  /-- 41_alu_register R141. -/
  | or (rd rs rt : Reg)
  /-- 41_alu_register R142. -/
  | sll (rd rt : Reg) (shamt : BitVec 5)
  /-- 41_alu_register R143. -/
  | sltu (rd rs rt : Reg)
  /-- 42_control_transfer R150. -/
  | j (target : BitVec 26)
  /-- 42_control_transfer R151. -/
  | jal (target : BitVec 26)
  /-- 42_control_transfer R152. -/
  | jr (rs : Reg)
  /-- 42_control_transfer R153. -/
  | bne (rs rt : Reg) (offset : Half)
  /-- 43_load_store R161. -/
  | lw (rt base : Reg) (offset : Half)
  /-- 43_load_store R162. -/
  | sb (rt base : Reg) (offset : Half)
  /-- 43_load_store R163. -/
  | sh (rt base : Reg) (offset : Half)
  /-- 43_load_store R164. -/
  | sw (rt base : Reg) (offset : Half)
  /-- 44_coprocessor0 R170; `rd` is the coprocessor-0 register number. -/
  | mtc0 (rt rd : Reg)
deriving DecidableEq, Repr

end Sys2Proof
end

