-- ==== Sys2Proof/Assembly.lean ====
section
/-! DEFINITION. Assembler text as data (30_encoding R114, R115; 10_state R22): what a programmer writes, with numbers where
the instruction word has bit fields. It is not state and no step reads it; Sys2Proof/WellFormed.lean says which lines fit
their fields, Sys2Proof/Machine/Assembler.lean turns a line into instructions. PRESUMED, unsafe (log 22): the register
numbering, the operand orders and the pseudo-instructions are general knowledge, as the spec itself marks them. -/

namespace Sys2Proof

/-- The alias names of 10_state R22 (33 names for 32 indices). -/
inductive RegName where
  | zero | at | v0 | v1 | a0 | a1 | a2 | a3
  | t0 | t1 | t2 | t3 | t4 | t5 | t6 | t7
  | s0 | s1 | s2 | s3 | s4 | s5 | s6 | s7
  | t8 | t9 | k0 | k1 | gp | sp | fp | s8 | ra
deriving DecidableEq, Repr

/-- A line of assembler: the eighteen instructions of 30_encoding R114 and the pseudo-instructions of R115. Immediates,
shift amounts and displacements are numbers, jump and branch targets are addresses. -/
inductive Asm where
  | lui (rt : Reg) (imm : Nat)
  | ori (rt rs : Reg) (imm : Nat)
  | andi (rt rs : Reg) (imm : Nat)
  | addiu (rt rs : Reg) (simm : Int)
  | addi (rt rs : Reg) (simm : Int)
  | addu (rd rs rt : Reg)
  | or (rd rs rt : Reg)
  | sltu (rd rs rt : Reg)
  | sll (rd rt : Reg) (shamt : Nat)
  | j (target : Word)
  | jal (target : Word)
  | jr (rs : Reg)
  | bne (rs rt : Reg) (label : Word)
  | lw (rt : Reg) (offset : Int) (base : Reg)
  | sb (rt : Reg) (offset : Int) (base : Reg)
  | sh (rt : Reg) (offset : Int) (base : Reg)
  | sw (rt : Reg) (offset : Int) (base : Reg)
  | mtc0 (rt rd : Reg)
  /-- `NOP`: the word 0x0000_0000 (30_encoding R112). -/
  | nop
  | move (rd rs : Reg)
  | li (rt : Reg) (v : Word)
  | la (rt : Reg) (v : Word)
  | bnez (rs : Reg) (label : Word)
deriving DecidableEq, Repr

end Sys2Proof
end

