-- ==== Sys2Proof/WellFormed.lean ====
section
/-! DEFINITION. Well-formedness. Every term of `Instr` is a legal instruction: the type of each operand has exactly the width
of its field (30_encoding R101), and no operand value is reserved (R111, R112), so no check on `Instr` could refuse one.
What can be ill-formed is a LINE OF ASSEMBLER (30_encoding R114): a number may not fit its field, a target may be out of a
jump's or a branch's reach. These checks are here. -/

namespace Sys2Proof

/-- A 16-bit immediate written as a natural number (LUI, ORI, ANDI). -/
def fitsImm (n : Nat) : Bool := n < 2 ^ 16

/-- A 16-bit signed immediate or displacement (ADDIU, ADDI, LW, SB, SH, SW). -/
def fitsSimm (n : Int) : Bool := -(2 ^ 15) ≤ n && n < 2 ^ 15

/-- A shift amount: a shift by 32 or more cannot be encoded (41_alu_register R142). -/
def fitsShamt (n : Nat) : Bool := n < 32

/-- The address `target` a J or JAL at address `a` can reach (42_control_transfer R150): word-aligned, and in the 256 MiB
region of `a + 8`, which is the program counter when the jump executes (not itself in a delay slot, 10_state R25). DESIGN CHOICE,
safe (log 24). -/
def jumpReaches (a target : Word) : Bool :=
  target.extractLsb' 0 2 == 0#2 && target.extractLsb' 28 4 == (a + 8#32).extractLsb' 28 4

/-- The address `label` a BNE at address `a` can reach (30_encoding R114, 42_control_transfer R153): a whole number of words
from `a + 4`, between `a + 4 - 0x2_0000` and `a + 4 + 0x1_FFFC`. DESIGN CHOICE, safe (log 24). -/
def branchReaches (a label : Word) : Bool :=
  (label - (a + 4#32)).extractLsb' 0 2 == 0#2
    && -(2 ^ 17) ≤ (label - (a + 4#32)).toInt && (label - (a + 4#32)).toInt < 2 ^ 17

/-- A line of assembler at address `a` is well-formed: every operand fits its field. -/
def Asm.wellFormed (a : Word) : Asm → Bool
  | .lui _ imm => fitsImm imm
  | .ori _ _ imm => fitsImm imm
  | .andi _ _ imm => fitsImm imm
  | .addiu _ _ simm => fitsSimm simm
  | .addi _ _ simm => fitsSimm simm
  | .addu _ _ _ => true
  | .or _ _ _ => true
  | .sltu _ _ _ => true
  | .sll _ _ shamt => fitsShamt shamt
  | .j target => jumpReaches a target
  | .jal target => jumpReaches a target
  | .jr _ => true
  | .bne _ _ label => branchReaches a label
  | .lw _ offset _ => fitsSimm offset
  | .sb _ offset _ => fitsSimm offset
  | .sh _ offset _ => fitsSimm offset
  | .sw _ offset _ => fitsSimm offset
  | .mtc0 _ _ => true
  | .nop => true
  | .move _ _ => true
  | .li _ _ => true
  | .la _ _ => true
  | .bnez _ label => branchReaches a label

end Sys2Proof
end

