-- ==== Sys2Proof/Decode.lean ====
section
/-! DEFINITION. Decode (30_encoding R100 to R113): field extraction, the dispatch of R106, total on every word and on every
list of bytes, rejecting by name; then the encoder, from the same tables; then the opcode table of spec/opcode_table.json as
rows of match and mask. UNVERIFIED, unsafe (log 1): the numeric opcode, function and sub-opcode values are those the spec
gives from general knowledge (R106 to R109, D17). -/

namespace Sys2Proof

/-- The word composed from four bytes at increasing addresses, little-endian (R100). -/
def wordOfBytes (b0 b1 b2 b3 : Byte) : Word := b3 ++ b2 ++ b1 ++ b0

/-- Byte `k` (0 to 3) of a word, least significant first: bits 8k+7 down to 8k (20_memory R76). -/
def byteOfWord (w : Word) (k : Nat) : Byte := w.extractLsb' (8 * k) 8

/-- The four bytes of a word, at increasing addresses. -/
def bytesOfWord (w : Word) : List Byte := [byteOfWord w 0, byteOfWord w 1, byteOfWord w 2, byteOfWord w 3]

/-! ### Fields (R101) -/

/-- Bits 31:26. -/
def opcodeField (w : Word) : BitVec 6 := w.extractLsb' 26 6
/-- Bits 25:21: `rs`, also named `base` (loads and stores) and `cop_sub` (coprocessor instructions). -/
def rsField (w : Word) : Reg := w.extractLsb' 21 5
/-- Bits 20:16. -/
def rtField (w : Word) : Reg := w.extractLsb' 16 5
/-- Bits 15:11. -/
def rdField (w : Word) : Reg := w.extractLsb' 11 5
/-- Bits 10:6. -/
def shamtField (w : Word) : BitVec 5 := w.extractLsb' 6 5
/-- Bits 5:0. -/
def functField (w : Word) : BitVec 6 := w.extractLsb' 0 6
/-- Bits 15:0, read as `imm` (zero-extended) or as `offset` (sign-extended) by the instruction. -/
def immField (w : Word) : Half := w.extractLsb' 0 16
/-- Bits 25:0. -/
def targetField (w : Word) : BitVec 26 := w.extractLsb' 0 26

/-- Why bytes are no instruction of the CORE: the selector field that selects no entry of R106, by name, or fewer than four
bytes. At a step such a word is the halt `Unimplemented` (R110). -/
inductive Reject where
  /-- The primary opcode selects nothing (R107). -/
  | opcode (op : BitVec 6)
  /-- The SPECIAL function code selects nothing (R108). -/
  | special (funct : BitVec 6)
  /-- The COP0 sub-opcode selects nothing (R109). -/
  | cop0 (sub : BitVec 5)
  /-- Fewer than four bytes: no word at all. DESIGN CHOICE, safe (log 23). A fetch always has four. -/
  | truncated
deriving DecidableEq, Repr

/-- The SPECIAL function map (R108). -/
def decodeSpecial (w : Word) : Except Reject Instr :=
  if functField w = 0x00#6 then .ok (.sll (rdField w) (rtField w) (shamtField w))
  else if functField w = 0x08#6 then .ok (.jr (rsField w))
  else if functField w = 0x21#6 then .ok (.addu (rdField w) (rsField w) (rtField w))
  else if functField w = 0x25#6 then .ok (.or (rdField w) (rsField w) (rtField w))
  else if functField w = 0x2B#6 then .ok (.sltu (rdField w) (rsField w) (rtField w))
  else .error (.special (functField w))

/-- The COP0 sub-opcode map (R109). -/
def decodeCop0 (w : Word) : Except Reject Instr :=
  if rsField w = 0x04#5 then .ok (.mtc0 (rtField w) (rdField w))
  else .error (.cop0 (rsField w))

/-- The dispatch of R106: only the selector fields are looked at (R111, D16). UNVERIFIED, unsafe (log 15). -/
def decodeWord (w : Word) : Except Reject Instr :=
  if opcodeField w = 0x00#6 then decodeSpecial w
  else if opcodeField w = 0x02#6 then .ok (.j (targetField w))
  else if opcodeField w = 0x03#6 then .ok (.jal (targetField w))
  else if opcodeField w = 0x05#6 then .ok (.bne (rsField w) (rtField w) (immField w))
  else if opcodeField w = 0x08#6 then .ok (.addi (rtField w) (rsField w) (immField w))
  else if opcodeField w = 0x09#6 then .ok (.addiu (rtField w) (rsField w) (immField w))
  else if opcodeField w = 0x0C#6 then .ok (.andi (rtField w) (rsField w) (immField w))
  else if opcodeField w = 0x0D#6 then .ok (.ori (rtField w) (rsField w) (immField w))
  else if opcodeField w = 0x0F#6 then .ok (.lui (rtField w) (immField w))
  else if opcodeField w = 0x10#6 then decodeCop0 w
  else if opcodeField w = 0x23#6 then .ok (.lw (rtField w) (rsField w) (immField w))
  else if opcodeField w = 0x28#6 then .ok (.sb (rtField w) (rsField w) (immField w))
  else if opcodeField w = 0x29#6 then .ok (.sh (rtField w) (rsField w) (immField w))
  else if opcodeField w = 0x2B#6 then .ok (.sw (rtField w) (rsField w) (immField w))
  else .error (.opcode (opcodeField w))

/-- Decode an instruction from the bytes at increasing addresses, and give the rest of the list back (R100). -/
def decodeBytes : List Byte → Except Reject (Instr × List Byte)
  | b0 :: b1 :: b2 :: b3 :: rest =>
    match decodeWord (wordOfBytes b0 b1 b2 b3) with
    | .ok i => .ok (i, rest)
    | .error r => .error r
  | [] => .error .truncated
  | [_] => .error .truncated
  | [_, _] => .error .truncated
  | [_, _, _] => .error .truncated

/-! ### Encode (R102) -/

/-- The R format: opcode, rs, rt, rd, shamt, funct. -/
def encodeR (op : BitVec 6) (rs rt rd : Reg) (shamt : BitVec 5) (funct : BitVec 6) : Word :=
  op ++ rs ++ rt ++ rd ++ shamt ++ funct

/-- The I format: opcode, rs (or base), rt, imm (or offset). -/
def encodeI (op : BitVec 6) (rs rt : Reg) (imm : Half) : Word := op ++ rs ++ rt ++ imm

/-- The J format: opcode, target. -/
def encodeJ (op : BitVec 6) (target : BitVec 26) : Word := op ++ target

/-- The word of an instruction; every bit its rule does not read is 0. DESIGN CHOICE, safe (log 23). -/
def encode : Instr → Word
  | .lui rt imm => encodeI 0x0F#6 0#5 rt imm
  | .ori rt rs imm => encodeI 0x0D#6 rs rt imm
  | .andi rt rs imm => encodeI 0x0C#6 rs rt imm
  | .addiu rt rs imm => encodeI 0x09#6 rs rt imm
  | .addi rt rs imm => encodeI 0x08#6 rs rt imm
  | .addu rd rs rt => encodeR 0x00#6 rs rt rd 0#5 0x21#6
  | .or rd rs rt => encodeR 0x00#6 rs rt rd 0#5 0x25#6
  | .sll rd rt shamt => encodeR 0x00#6 0#5 rt rd shamt 0x00#6
  | .sltu rd rs rt => encodeR 0x00#6 rs rt rd 0#5 0x2B#6
  | .j target => encodeJ 0x02#6 target
  | .jal target => encodeJ 0x03#6 target
  | .jr rs => encodeR 0x00#6 rs 0#5 0#5 0#5 0x08#6
  | .bne rs rt offset => encodeI 0x05#6 rs rt offset
  | .lw rt base offset => encodeI 0x23#6 base rt offset
  | .sb rt base offset => encodeI 0x28#6 base rt offset
  | .sh rt base offset => encodeI 0x29#6 base rt offset
  | .sw rt base offset => encodeI 0x2B#6 base rt offset
  | .mtc0 rt rd => encodeR 0x10#6 0x04#5 rt rd 0#5 0#6

/-! ### The opcode table -/

/-- One row of spec/opcode_table.json: a word is the row's instruction when its bits under `mask` are `pattern`; `used` adds
to `mask` the operand fields, so the bits outside `used` are those no rule reads (30_encoding introduction, R111). -/
structure OpcodeRow where
  pattern : Word
  mask : Word
  used : Word
deriving DecidableEq, Repr

/-- The row of an instruction, from the table's match, mask and encoding strings. -/
def Instr.row : Instr → OpcodeRow
  | .lui _ _ => ⟨0x3C000000#32, 0xFC000000#32, 0xFC1FFFFF#32⟩
  | .ori _ _ _ => ⟨0x34000000#32, 0xFC000000#32, 0xFFFFFFFF#32⟩
  | .andi _ _ _ => ⟨0x30000000#32, 0xFC000000#32, 0xFFFFFFFF#32⟩
  | .addiu _ _ _ => ⟨0x24000000#32, 0xFC000000#32, 0xFFFFFFFF#32⟩
  | .addi _ _ _ => ⟨0x20000000#32, 0xFC000000#32, 0xFFFFFFFF#32⟩
  | .addu _ _ _ => ⟨0x00000021#32, 0xFC00003F#32, 0xFFFFF83F#32⟩
  | .or _ _ _ => ⟨0x00000025#32, 0xFC00003F#32, 0xFFFFF83F#32⟩
  | .sll _ _ _ => ⟨0x00000000#32, 0xFC00003F#32, 0xFC1FFFFF#32⟩
  | .sltu _ _ _ => ⟨0x0000002B#32, 0xFC00003F#32, 0xFFFFF83F#32⟩
  | .j _ => ⟨0x08000000#32, 0xFC000000#32, 0xFFFFFFFF#32⟩
  | .jal _ => ⟨0x0C000000#32, 0xFC000000#32, 0xFFFFFFFF#32⟩
  | .jr _ => ⟨0x00000008#32, 0xFC00003F#32, 0xFFE0003F#32⟩
  | .bne _ _ _ => ⟨0x14000000#32, 0xFC000000#32, 0xFFFFFFFF#32⟩
  | .lw _ _ _ => ⟨0x8C000000#32, 0xFC000000#32, 0xFFFFFFFF#32⟩
  | .sb _ _ _ => ⟨0xA0000000#32, 0xFC000000#32, 0xFFFFFFFF#32⟩
  | .sh _ _ _ => ⟨0xA4000000#32, 0xFC000000#32, 0xFFFFFFFF#32⟩
  | .sw _ _ _ => ⟨0xAC000000#32, 0xFC000000#32, 0xFFFFFFFF#32⟩
  | .mtc0 _ _ => ⟨0x40800000#32, 0xFFE00000#32, 0xFFFFF800#32⟩

/-- The eighteen rows of the table, in its order. -/
def opcodeTable : List OpcodeRow :=
  [(Instr.lui 0 0).row, (Instr.ori 0 0 0).row, (Instr.andi 0 0 0).row, (Instr.addiu 0 0 0).row, (Instr.addi 0 0 0).row,
   (Instr.addu 0 0 0).row, (Instr.or 0 0 0).row, (Instr.sll 0 0 0).row, (Instr.sltu 0 0 0).row,
   (Instr.j 0).row, (Instr.jal 0).row, (Instr.jr 0).row, (Instr.bne 0 0 0).row,
   (Instr.lw 0 0 0).row, (Instr.sb 0 0 0).row, (Instr.sh 0 0 0).row, (Instr.sw 0 0 0).row, (Instr.mtc0 0 0).row]

/-- A word is of a row. -/
def OpcodeRow.covers (r : OpcodeRow) (w : Word) : Bool := w &&& r.mask == r.pattern

/-- Two rows overlap when the bits both check agree: then some word is of both. -/
def OpcodeRow.overlaps (r q : OpcodeRow) : Bool := r.pattern &&& q.mask == q.pattern &&& r.mask

/-- The instruction the decoder reads from a table row's bits: bit 0 is the least significant bit of the one word, bits above
`nbits` are 0, and the word is laid out little-endian for `decodeBytes`. -/
def decodeTableWord (nbits w : Nat) : Option Instr :=
  match decodeBytes (bytesOfWord (BitVec.ofNat 32 (w % 2 ^ nbits))) with
  | .ok (i, _) => some i
  | .error _ => none

end Sys2Proof
end

