-- ==== Sys2Proof/Machine/Memory.lean ====
section
/-! DEFINITION. Byte memories as lists of cells in one canonical form, and the little-endian word accesses that are the only
data accesses of the CORE (20_memory R66, R67, R69, R75, R76). -/

namespace Sys2Proof.Machine

/-- What an offset that no cell lists reads as. For the firmware it is the spec's all-zero image (70_reset_and_hazards R211);
for RAM the spec leaves the contents open (D6). DESIGN CHOICE, unsafe (log 6). -/
def Memory.unlisted : Byte := 0#8

/-- The byte at an offset. -/
def Memory.read : Memory → Nat → Byte
  | [], _ => Memory.unlisted
  | (k, b) :: rest, a => if a = k then b else Memory.read rest a

/-- Write a byte, keeping the canonical form: writing the unlisted value removes the cell. -/
def Memory.write : Memory → Nat → Byte → Memory
  | [], a, v => if v = Memory.unlisted then [] else [(a, v)]
  | (k, b) :: rest, a, v =>
    if a < k then (if v = Memory.unlisted then (k, b) :: rest else (a, v) :: (k, b) :: rest)
    else if a = k then (if v = Memory.unlisted then rest else (a, v) :: rest)
    else (k, b) :: Memory.write rest a v

/-- Canonical from offset `lo` on: strictly rising, and no cell holds the unlisted value. -/
def Memory.wfFrom (lo : Nat) : Memory → Bool
  | [] => true
  | (k, b) :: rest => decide (lo ≤ k) && b != Memory.unlisted && Memory.wfFrom (k + 1) rest

/-- The canonical form. -/
def Memory.wf (m : Memory) : Bool := Memory.wfFrom 0 m

/-- Every listed offset is below `size`. -/
def Memory.within (size : Nat) (m : Memory) : Bool := m.all fun c => decide (c.1 < size)

/-- The word at offsets `o` to `o + 3`, little-endian (20_memory R66, R67). -/
def Memory.read32 (m : Memory) (o : Nat) : Word :=
  wordOfBytes (m.read o) (m.read (o + 1)) (m.read (o + 2)) (m.read (o + 3))

/-- Store a word at offsets `o` to `o + 3`, little-endian (20_memory R69). -/
def Memory.write32 (m : Memory) (o : Nat) (v : Word) : Memory :=
  (((m.write o (byteOfWord v 0)).write (o + 1) (byteOfWord v 1)).write (o + 2) (byteOfWord v 2)).write (o + 3) (byteOfWord v 3)

/-- The memory that holds a list of bytes from offset `a` on. -/
def Memory.ofBytesFrom : Nat → List Byte → Memory
  | _, [] => []
  | a, b :: rest =>
    if b = Memory.unlisted then Memory.ofBytesFrom (a + 1) rest else (a, b) :: Memory.ofBytesFrom (a + 1) rest

/-- The memory that holds a file's bytes (70_reset_and_hazards R211). -/
def Memory.ofBytes (file : List Byte) : Memory := Memory.ofBytesFrom 0 file

end Sys2Proof.Machine
end

