-- ==== Sys2Proof/Machine/Ops.lean ====
section
/-! DEFINITION. The named operations over the state: the register files, diagnostics, the halt (the CORE's only trap,
60_exceptions R180, R183: there is no exception entry to model and no return from one, R186), memory accesses, the parts of
the cycle around the execution of an instruction (10_state R41 to R46), and construction (70_reset_and_hazards R210). -/

namespace Sys2Proof.Machine

/-! ### Registers -/

/-- Read a register of a file: index 0 always reads as zero (10_state R21). DEDUCED, safe (log 20). -/
def RegFile.read (f : RegFile) (i : Reg) : Word := if i = 0#5 then 0#32 else f[i.toNat]'i.isLt

/-- Write a register of a file: a write to index 0 is discarded (10_state R21). -/
def RegFile.write (f : RegFile) (i : Reg) (v : Word) : RegFile := if i = 0#5 then f else f.set i.toNat v i.isLt

/-- `x[i]`: a read of the visible file `R` (00_scope R12, 10_state R20). -/
def State.x (s : State) (i : Reg) : Word := RegFile.read s.regs i

/-- `x[i] <- v`: a write staged in the shadow file `S` (00_scope R12, 10_state R23). -/
def State.stage (s : State) (i : Reg) (v : Word) : State := { s with shadow := RegFile.write s.shadow i v }

/-- `pc <- target`: an immediate overwrite of the program counter (00_scope R12). -/
def State.jump (s : State) (target : Word) : State := { s with pc := target }

/-- `PL <- (i, v)` (00_scope R12). -/
def State.setPending (s : State) (i : Reg) (v : Word) : State := { s with pl := ⟨i, v⟩ }

/-! ### Diagnostics and the halt -/

/-- `diag(...)`: no state of the CORE changes (60_exceptions R196); the model records the event.
DESIGN CHOICE, safe (log 9). -/
def State.emit (s : State) (d : Diag) : State := { s with diags := s.diags ++ [d] }

/-- `raise Halt(reason)`: `halted` is set and a diagnostic is emitted, nothing else (60_exceptions R183). -/
def State.raise (s : State) (r : HaltReason) : State := { s with halted := true, diags := s.diags ++ [.halt r] }

/-- The halt reasons among a list of diagnostics, in their order. -/
def haltReasons : List Diag → List HaltReason
  | [] => []
  | .halt r :: rest => r :: haltReasons rest
  | .narrowStoreIgnored _ _ _ :: rest => haltReasons rest
  | .deviceWriteIgnored _ _ _ :: rest => haltReasons rest
  | .firmwareWriteRejected _ _ _ :: rest => haltReasons rest
  | .loadIsolated :: rest => haltReasons rest
  | .storeIsolated _ :: rest => haltReasons rest
  | .cop0WriteIgnored _ :: rest => haltReasons rest
  | .firmwareSizeRejected _ :: rest => haltReasons rest

/-! ### Coprocessor 0 -/

/-- The status register, `C0[12]` (10_state R30). -/
def State.sr (s : State) : Word := s.cop0[12]

/-- Write the status register: all 32 bits are stored (44_coprocessor0 R170), at once (R171, D20). UNVERIFIED, safe (log 21). -/
def State.setSr (s : State) (v : Word) : State := { s with cop0 := s.cop0.set 12 v }

/-- `isolated()`: bit 16 of SR (20_memory R73). -/
def State.isolated (s : State) : Bool := s.sr.getLsbD 16

/-! ### Reads -/

/-- `readWord` (20_memory R65): the word, or the halt it raises. -/
def readWord (s : State) (va : Word) : Except HaltReason Word :=
  if va.extractLsb' 0 2 ≠ 0#2 then .error (.misalignedRead va)
  else match classify (translateVa va) with
    | .main => .ok (s.ram.read32 (ramOffset (translateVa va)))
    | .bios => .ok (s.bios.read32 (biosOffset (translateVa va)))
    | .expansion1 => .error (.unhandledRead va (translateVa va) .expansion1)
    | .scratchpad => .error (.unhandledRead va (translateVa va) .scratchpad)
    | .hardwareRegs => .error (.unhandledRead va (translateVa va) .hardwareRegs)
    | .io => .error (.unhandledRead va (translateVa va) .io)
    | .unmapped => .error (.unhandledRead va (translateVa va) .unmapped)

/-- The value `readWord` gives its caller: 0 where it halts (R65, D25). UNVERIFIED, unsafe (log 17). -/
def readValue : Except HaltReason Word → Word
  | .ok v => v
  | .error _ => 0#32

/-- Raise the halt of a read, if it raised one. -/
def State.raiseIfError (s : State) : Except HaltReason Word → State
  | .ok _ => s
  | .error r => s.raise r

/-- LW's access behind the cache-isolation gate (43_load_store R161, 20_memory R73): skipped when isolated, else `PL` takes
what `readWord` gives. -/
def State.load (s : State) (rt : Reg) (va : Word) : State :=
  if s.isolated then s.emit .loadIsolated
  else (s.raiseIfError (readWord s va)).setPending rt (readValue (readWord s va))

/-! ### Writes -/

/-- The number of bytes of a store. -/
def Width.bytes : Width → Nat
  | .byte => 1
  | .half => 2
  | .word => 4

/-- The alignment a store needs (20_memory R77): none for a byte, 2 bytes for a half, 4 for a word. -/
def misaligned (w : Width) (va : Word) : Bool :=
  match w with
  | .byte => false
  | .half => va.extractLsb' 0 1 != 0#1
  | .word => va.extractLsb' 0 2 != 0#2

/-- A store to Main: a word is written little-endian (20_memory R69), a byte or a half is accepted and ignored (R70). -/
def State.storeMain (s : State) (w : Width) (va value : Word) : State :=
  match w with
  | .word => { s with ram := s.ram.write32 (ramOffset (translateVa va)) value }
  | .half => s.emit (.narrowStoreIgnored va .half value)
  | .byte => s.emit (.narrowStoreIgnored va .byte value)

/-- A store to HardwareRegs or IO: no effect; whether a diagnostic is emitted is a free value (20_memory R71, C8).
DESIGN CHOICE, safe (log 10). -/
def State.storeDevice (s : State) (w : Width) (va value : Word) : State :=
  { s with diags := s.diags ++ (if Config.deviceWriteDiag w.bytes va value then [.deviceWriteIgnored va w value] else []) }

/-- The write routines `writeByte`, `writeHalf`, `writeWord` (20_memory R68); `value` is already truncated to the width. -/
def State.write (s : State) (w : Width) (va value : Word) : State :=
  if misaligned w va then s.raise (.misalignedWrite va w.bytes)
  else match classify (translateVa va) with
    | .main => s.storeMain w va value
    | .hardwareRegs => s.storeDevice w va value
    | .io => s.storeDevice w va value
    | .bios => s.emit (.firmwareWriteRejected va w value)
    | .expansion1 => s.raise (.unhandledWrite va (translateVa va) .expansion1 value)
    | .scratchpad => s.raise (.unhandledWrite va (translateVa va) .scratchpad value)
    | .unmapped => s.raise (.unhandledWrite va (translateVa va) .unmapped value)

/-- A store behind the cache-isolation gate (20_memory R73, R74): skipped when isolated. -/
def State.store (s : State) (w : Width) (va value : Word) : State :=
  if s.isolated then s.emit (.storeIsolated w) else s.write w va value

/-! ### The cycle around the execution of an instruction -/

/-- Step 2, `NI <- fetch(PC)` (10_state R42): `readWord` without the cache-isolation gate (20_memory R89, D19). UNVERIFIED, unsafe
(log 16). A failing
fetch halts and latches 0. -/
def State.fetch (s : State) : State :=
  { s.raiseIfError (readWord s s.pc) with ni := readValue (readWord s s.pc) }

/-- Step 3, `PC <- PC + 4` (10_state R43). -/
def State.advance (s : State) : State := { s with pc := s.pc + 4#32 }

/-- Step 4: commit the pending load into the shadow file, index 0 never, and empty it (10_state R44). -/
def State.commit (s : State) : State :=
  { s with shadow := RegFile.write s.shadow s.pl.idx s.pl.val, pl := ⟨0#5, 0#32⟩ }

/-- Steps 2 to 4 of a cycle, its record of diagnostics begun anew (10_state R42 to R44, log 9). -/
def State.beginCycle (s : State) : State := ({ s with diags := [] }).fetch.advance.commit

/-- Step 6: publish the shadow file, all 32 entries (10_state R46). -/
def State.publish (s : State) : State := { s with regs := s.shadow }

/-- Step 5 for a word that selects no instruction (30_encoding R110): it halts, and nothing else. -/
def State.unimplemented (s : State) (w : Word) : State :=
  s.raise (.unimplemented w (opcodeField w) (functField w))

/-- Step 6 after step 5, where step 5 gave a next state. -/
def publishOutcome : Host.Outcome State Fault Refusal → Host.Outcome State Fault Refusal
  | .next s => .next s.publish
  | .fault r => .fault r
  | .refused r => .refused r

/-- Store the bits of an instruction where the next step takes its instruction from: the next-instruction latch (10_state R26,
R41). Bits above `nbits` are 0. -/
def State.latchWord (s : State) (nbits w : Nat) : State := { s with ni := BitVec.ofNat 32 (w % 2 ^ nbits) }

/-! ### Construction -/

/-- The firmware image of a file (70_reset_and_hazards R211): its bytes if there are exactly 524288, else all zero. -/
def firmwareImage (file : List Byte) : Memory := if file.length = Config.biosSize then Memory.ofBytes file else []

/-- The diagnostic of a file of the wrong size (70_reset_and_hazards R211). -/
def firmwareDiags (file : List Byte) : List Diag :=
  if file.length = Config.biosSize then [] else [.firmwareSizeRejected file.length]

/-- Construction of the engine (70_reset_and_hazards R210, 10_state R35) from `GPR_INIT` (whose entry 0 is 0), `RAM_INIT` and
the firmware file. It cannot fail. -/
def State.construct (gprInit : RegFile) (ramInit : Memory) (file : List Byte) : State where
  regs := gprInit.set 0 0#32
  shadow := gprInit.set 0 0#32
  pl := ⟨0#5, 0#32⟩
  pc := Config.resetPc
  ni := 0x00000000#32
  cop0 := Vector.replicate 16 0#32
  ram := ramInit
  bios := firmwareImage file
  halted := false
  diags := firmwareDiags file

end Sys2Proof.Machine
end

