-- ==== Sys2Proof/Machine/Operands.lean ====
section
/-! DEFINITION. Every operand form of 30_encoding R103: immediates, the effective address, branch and jump targets, and a
store's data. -/

namespace Sys2Proof.Machine

/-- `zext_16`: the zero-extended immediate (00_scope R11; ORI, ANDI). -/
def zext16 (imm : Half) : Word := imm.setWidth 32

/-- `sext_16`: the sign-extended immediate or offset (00_scope R11; ADDIU, ADDI, LW, SB, SH, SW, BNE). -/
def sext16 (imm : Half) : Word := imm.signExtend 32

/-- The upper immediate: `zext_16 << 16` (30_encoding R103; LUI). -/
def upperImm (imm : Half) : Word := zext16 imm <<< 16

/-- `ea = x[base] + sext_16(offset)`, the only addressing mode (43_load_store R160). -/
def State.ea (s : State) (base : Reg) (offset : Half) : Word := s.x base + sext16 offset

/-- The branch target `PC + (sext_16(offset) << 2) - 4`, from the program counter as it stands in step 5 (42_control_transfer
R153). -/
def branchTarget (pc : Word) (offset : Half) : Word := pc + (sext16 offset <<< 2) - 4#32

/-- The jump target `(PC & 0xF000_0000) | (target << 2)`, from the program counter as it stands in step 5 (42_control_transfer
R150, D14). UNVERIFIED, unsafe (log 13). -/
def jumpTarget (pc : Word) (target : BitVec 26) : Word := (pc &&& 0xF0000000#32) ||| (target.setWidth 32 <<< 2)

/-- A store's data: `x[rt]` truncated to the width, zero-extended to a word (43_load_store R160). -/
def State.storeData (s : State) (w : Width) (rt : Reg) : Word :=
  match w with
  | .byte => ((s.x rt).setWidth 8).setWidth 32
  | .half => ((s.x rt).setWidth 16).setWidth 32
  | .word => s.x rt

end Sys2Proof.Machine
end

