-- ==== Sys2Proof/Machine/Flags.lean ====
section
/-! DEFINITION. The CORE has no flags (10_state R27): no instruction sets one, and State holds none. The two conditions that
another machine would put in flags are computed here: ADDI's signed overflow, which halts (40_alu_immediate R134), and SLTU's
unsigned comparison, whose result goes to a register (41_alu_register R143). -/

namespace Sys2Proof.Machine

/-- The signed sum, as integers, is outside the 32-bit range (40_alu_immediate R134). -/
def addOverflows (a b : Word) : Bool := 2 ^ 31 - 1 < a.toInt + b.toInt || a.toInt + b.toInt < -(2 ^ 31)

/-- `unsigned(a) < unsigned(b) ? 1 : 0` (41_alu_register R143). -/
def lessUnsigned (a b : Word) : Word := if a.toNat < b.toNat then 1#32 else 0#32

end Sys2Proof.Machine
end

