-- ==== Sys2Proof/Machine/AluImmediate.lean ====
section
/-! DEFINITION. Immediate arithmetic and logic (40_alu_immediate): LUI, ORI, ANDI, ADDIU, ADDI. -/

namespace Sys2Proof.Machine

/-- LUI (R130): `x[rt] <- imm << 16`. -/
def execLui (rt : Reg) (imm : Half) (s : State) : Host.Outcome State Fault Refusal :=
  .next (s.stage rt (upperImm imm))

/-- ORI (R131): `x[rt] <- x[rs] | zext_16(imm)`. -/
def execOri (rt rs : Reg) (imm : Half) (s : State) : Host.Outcome State Fault Refusal :=
  .next (s.stage rt (s.x rs ||| zext16 imm))

/-- ANDI (R132): `x[rt] <- x[rs] & zext_16(imm)`. -/
def execAndi (rt rs : Reg) (imm : Half) (s : State) : Host.Outcome State Fault Refusal :=
  .next (s.stage rt (s.x rs &&& zext16 imm))

/-- ADDIU (R133): `x[rt] <- x[rs] + sext_16(imm)`, wrapping, no overflow check. -/
def execAddiu (rt rs : Reg) (imm : Half) (s : State) : Host.Outcome State Fault Refusal :=
  .next (s.stage rt (s.x rs + sext16 imm))

/-- ADDI (R134): as ADDIU, but a signed sum out of range halts and writes no register, whatever `rt` is. The suppressed write
is the spec's decision D10: UNVERIFIED, unsafe (log 11). Every bit of an ADDI word is an operand, so `encode` gives back the raw
word of the diagnostic. -/
def execAddi (rt rs : Reg) (imm : Half) (s : State) : Host.Outcome State Fault Refusal :=
  if addOverflows (s.x rs) (sext16 imm) then .next (s.raise (.addiOverflow (encode (.addi rt rs imm)) (s.x rs)))
  else .next (s.stage rt (s.x rs + sext16 imm))

end Sys2Proof.Machine
end

