-- ==== Sys2Proof/Machine/AluRegister.lean ====
section
/-! DEFINITION. Register arithmetic, logic and shift (41_alu_register): ADDU, OR, SLL, SLTU. -/

namespace Sys2Proof.Machine

/-- ADDU (R140): `x[rd] <- x[rs] + x[rt]`, wrapping. -/
def execAddu (rd rs rt : Reg) (s : State) : Host.Outcome State Fault Refusal :=
  .next (s.stage rd (s.x rs + s.x rt))

/-- OR (R141): `x[rd] <- x[rs] | x[rt]`. -/
def execOr (rd rs rt : Reg) (s : State) : Host.Outcome State Fault Refusal :=
  .next (s.stage rd (s.x rs ||| s.x rt))

/-- SLL (R142): `x[rd] <- x[rt] << shamt`, vacated bits zero. -/
def execSll (rd rt : Reg) (shamt : BitVec 5) (s : State) : Host.Outcome State Fault Refusal :=
  .next (s.stage rd (s.x rt <<< shamt.toNat))

/-- SLTU (R143): `x[rd] <- (unsigned(x[rs]) < unsigned(x[rt])) ? 1 : 0`. -/
def execSltu (rd rs rt : Reg) (s : State) : Host.Outcome State Fault Refusal :=
  .next (s.stage rd (lessUnsigned (s.x rs) (s.x rt)))

end Sys2Proof.Machine
end

