-- ==== Sys2Proof/Machine/ControlTransfer.lean ====
section
/-! DEFINITION. Control transfer (42_control_transfer): J, JAL, JR, BNE. Each overwrites the program counter at once; the word
already in the next-instruction latch still executes in the next cycle (R154). -/

namespace Sys2Proof.Machine

/-- J (R150). -/
def execJ (target : BitVec 26) (s : State) : Host.Outcome State Fault Refusal :=
  .next (s.jump (jumpTarget s.pc target))

/-- JAL (R151): register 31 takes the program counter as it stands in step 5 (A + 8, 90_conflicts C3), then as J. -/
def execJal (target : BitVec 26) (s : State) : Host.Outcome State Fault Refusal :=
  .next ((s.stage 31#5 s.pc).jump (jumpTarget s.pc target))

/-- JR (R152): no alignment check; a misaligned target halts at the next cycle's fetch (R156). -/
def execJr (rs : Reg) (s : State) : Host.Outcome State Fault Refusal :=
  .next (s.jump (s.x rs))

/-- BNE (R153). -/
def execBne (rs rt : Reg) (offset : Half) (s : State) : Host.Outcome State Fault Refusal :=
  if s.x rs ≠ s.x rt then .next (s.jump (branchTarget s.pc offset)) else .next s

end Sys2Proof.Machine
end

