-- ==== Sys2Proof/Machine/Coprocessor0.lean ====
section
/-! DEFINITION. Coprocessor 0 (44_coprocessor0): MTC0, its only instruction. -/

namespace Sys2Proof.Machine

/-- MTC0 (R170): `rd = 12` writes the status register, any other `rd` (0 to 11, 13 to 31) is a diagnostic and nothing else
(90_conflicts C2, D15). UNVERIFIED, unsafe (log 14). -/
def execMtc0 (rt rd : Reg) (s : State) : Host.Outcome State Fault Refusal :=
  if rd = 12#5 then .next (s.setSr (s.x rt)) else .next (s.emit (.cop0WriteIgnored rd))

end Sys2Proof.Machine
end

