-- ==== Sys2Proof/Machine/LoadStore.lean ====
section
/-! DEFINITION. Loads and stores (43_load_store): LW, SB, SH, SW, each behind the cache-isolation gate (20_memory R73). -/

namespace Sys2Proof.Machine

/-- LW (R161): the loaded word becomes the pending load of `rt`. -/
def execLw (rt base : Reg) (offset : Half) (s : State) : Host.Outcome State Fault Refusal :=
  .next (s.load rt (s.ea base offset))

/-- SB (R162): never changes a byte of memory (20_memory R70 to R72). -/
def execSb (rt base : Reg) (offset : Half) (s : State) : Host.Outcome State Fault Refusal :=
  .next (s.store .byte (s.ea base offset) (s.storeData .byte rt))

/-- SH (R163): as SB, after the alignment check. -/
def execSh (rt base : Reg) (offset : Half) (s : State) : Host.Outcome State Fault Refusal :=
  .next (s.store .half (s.ea base offset) (s.storeData .half rt))

/-- SW (R164): the only instruction that writes RAM. -/
def execSw (rt base : Reg) (offset : Half) (s : State) : Host.Outcome State Fault Refusal :=
  .next (s.store .word (s.ea base offset) (s.storeData .word rt))

end Sys2Proof.Machine
end

