-- ==== Sys2Proof/Machine/Step.lean ====
section
/-! DEFINITION. One cycle of the CORE (10_state R40 to R49). A halt raised in a cycle does not abort it (R47): the cycle ends
in a next state with `halted` set, and the step after it faults (R48). DEDUCED, safe (log 8). -/

namespace Sys2Proof.Machine

/-- One cycle: the word in the latch is the instruction (R41), steps 2 to 4 (`beginCycle`), step 5 (`exec`, or the halt of an
unimplemented word), step 6 (`publish`). A halted engine takes no cycle. -/
def step (s : State) : Host.Outcome State Fault Refusal :=
  if s.halted then .fault (.halted (haltReasons s.diags))
  else match decodeWord s.ni with
    | .ok i => publishOutcome (exec i s.beginCycle)
    | .error _ => .next (s.beginCycle.unimplemented s.ni).publish

/-- `s` with an instruction where the next step takes it from: in the next-instruction latch (log 7). -/
def State.withFetchWord (s : State) (nbits w : Nat) : State := s.latchWord nbits w

end Sys2Proof.Machine
end

