-- ==== Sys2Proof/Machine/Assembler.lean ====
section
/-! DEFINITION. The assembler of 30_encoding R114 and R115 and the register numbers of 10_state R22: the fields each line of
assembler gives, and the expansions of the pseudo-instructions. It changes no state. PRESUMED, unsafe (log 22). -/

namespace Sys2Proof

/-- The index of each alias name; `fp` and `s8` are both 30 (10_state R22). -/
def RegName.index : RegName → Reg
  | .zero => 0 | .at => 1 | .v0 => 2 | .v1 => 3 | .a0 => 4 | .a1 => 5 | .a2 => 6 | .a3 => 7
  | .t0 => 8 | .t1 => 9 | .t2 => 10 | .t3 => 11 | .t4 => 12 | .t5 => 13 | .t6 => 14 | .t7 => 15
  | .s0 => 16 | .s1 => 17 | .s2 => 18 | .s3 => 19 | .s4 => 20 | .s5 => 21 | .s6 => 22 | .s7 => 23
  | .t8 => 24 | .t9 => 25 | .k0 => 26 | .k1 => 27 | .gp => 28 | .sp => 29 | .fp => 30 | .s8 => 30 | .ra => 31

/-- `target = target_address[27:2]` (R114). -/
def jumpField (target : Word) : BitVec 26 := target.extractLsb' 2 26

/-- `offset = (label - (A + 4)) / 4`, `A` the branch's address (R114). -/
def branchField (a label : Word) : Half := (label - (a + 4#32)).extractLsb' 2 16

/-- LUI and then ORI: the general expansion of LI and LA (R115). -/
def loadLong (rt : Reg) (v : Word) : List Instr := [.lui rt (v.extractLsb' 16 16), .ori rt rt (v.extractLsb' 0 16)]

/-- The instructions of a line of assembler at address `a` (R114, R115). -/
def Asm.assemble (a : Word) : Asm → List Instr
  | .lui rt imm => [.lui rt (BitVec.ofNat 16 imm)]
  | .ori rt rs imm => [.ori rt rs (BitVec.ofNat 16 imm)]
  | .andi rt rs imm => [.andi rt rs (BitVec.ofNat 16 imm)]
  | .addiu rt rs simm => [.addiu rt rs (BitVec.ofInt 16 simm)]
  | .addi rt rs simm => [.addi rt rs (BitVec.ofInt 16 simm)]
  | .addu rd rs rt => [.addu rd rs rt]
  | .or rd rs rt => [.or rd rs rt]
  | .sltu rd rs rt => [.sltu rd rs rt]
  | .sll rd rt shamt => [.sll rd rt (BitVec.ofNat 5 shamt)]
  | .j target => [.j (jumpField target)]
  | .jal target => [.jal (jumpField target)]
  | .jr rs => [.jr rs]
  | .bne rs rt label => [.bne rs rt (branchField a label)]
  | .lw rt offset base => [.lw rt base (BitVec.ofInt 16 offset)]
  | .sb rt offset base => [.sb rt base (BitVec.ofInt 16 offset)]
  | .sh rt offset base => [.sh rt base (BitVec.ofInt 16 offset)]
  | .sw rt offset base => [.sw rt base (BitVec.ofInt 16 offset)]
  | .mtc0 rt rd => [.mtc0 rt rd]
  | .nop => [.sll 0#5 0#5 0#5]
  | .move rd rs => [.addu rd rs 0#5]
  | .li rt v =>
    if v.toNat < 0x10000 then [.ori rt 0#5 (v.extractLsb' 0 16)]
    else if -0x8000 ≤ v.toInt ∧ v.toInt < 0 then [.addiu rt 0#5 (v.extractLsb' 0 16)]
    else loadLong rt v
  | .la rt v => loadLong rt v
  | .bnez rs label => [.bne rs 0#5 (branchField a label)]

end Sys2Proof
end

