-- ==== Sys2Proof/Safety.lean ====
section
/-! DEFINITION. The terms that claims are stated in: a running engine, a safe cycle, the invariant of every reachable state,
what an instruction leaves unchanged (its frame), and straight-line execution of a list of instructions. -/

namespace Sys2Proof.Machine

/-- The engine takes a cycle (10_state R48). -/
def State.Running (s : State) : Prop := s.halted = false

/-- A cycle that completes without a halt. -/
def State.SafeCycle (s : State) : Prop := ∃ t, step s = .next t ∧ t.Running

/-- What holds of every state between cycles: register 0 holds zero (10_state R21), the shadow file equals the visible one
(R23), both memories are canonical and within their sizes (R31, R32), and every coprocessor-0 entry but 12 is as construction
left it (R29). -/
abbrev State.Inv (s : State) : Prop :=
  s.regs[0] = 0#32 ∧ s.shadow = s.regs
    ∧ s.ram.wf = true ∧ s.ram.within Config.ramSize = true
    ∧ s.bios.wf = true ∧ s.bios.within Config.biosSize = true
    ∧ ∀ i : Fin 16, i ≠ 12 → s.cop0[i] = 0#32

/-! ### Frames -/

/-- The visible register file is unchanged. -/
def SameVisible (s t : State) : Prop := t.regs = s.regs

/-- The shadow register file is unchanged. -/
def SameShadow (s t : State) : Prop := t.shadow = s.shadow

/-- The pending load is unchanged. -/
def SamePending (s t : State) : Prop := t.pl = s.pl

/-- The program counter is unchanged. -/
def SamePc (s t : State) : Prop := t.pc = s.pc

/-- The next-instruction latch is unchanged. -/
def SameLatch (s t : State) : Prop := t.ni = s.ni

/-- Every coprocessor-0 register is unchanged. -/
def SameCop0 (s t : State) : Prop := ∀ i : Fin 16, t.cop0[i] = s.cop0[i]

/-- Every byte of RAM reads as before. -/
def SameRam (s t : State) : Prop := ∀ a, t.ram.read a = s.ram.read a

/-- Every byte of the firmware image reads as before. -/
def SameBios (s t : State) : Prop := ∀ a, t.bios.read a = s.bios.read a

/-- The halted flag is unchanged and nothing was reported. -/
def Silent (s t : State) : Prop := t.halted = s.halted ∧ t.diags = s.diags

/-- The halted flag is unchanged and exactly one event was reported. -/
def Reports (d : Diag) (s t : State) : Prop := t.halted = s.halted ∧ t.diags = s.diags ++ [d]

/-- The engine is halted for that reason, which was reported (60_exceptions R183). -/
def Halts (r : HaltReason) (s t : State) : Prop := t.halted = true ∧ t.diags = s.diags ++ [.halt r]

/-- Everything but the flag and the reports is unchanged. -/
def SameMachine (s t : State) : Prop :=
  SameVisible s t ∧ SameShadow s t ∧ SamePending s t ∧ SamePc s t ∧ SameLatch s t ∧ SameCop0 s t ∧ SameRam s t ∧ SameBios s t

/-- The one effect of an arithmetic instruction: the shadow entry of `d` takes `v` (nothing if `d` is 0), all else is
unchanged. -/
def StagesOnly (d : Reg) (v : Word) (s t : State) : Prop :=
  (∀ r : Reg, t.shadow[r.toNat]'r.isLt = if r = d ∧ d ≠ 0#5 then v else s.shadow[r.toNat]'r.isLt)
    ∧ SameVisible s t ∧ SamePending s t ∧ SamePc s t ∧ SameLatch s t ∧ SameCop0 s t ∧ SameRam s t ∧ SameBios s t ∧ Silent s t

/-- The one effect of a jump: the program counter becomes `target`, all else is unchanged. -/
def JumpsOnly (target : Word) (s t : State) : Prop :=
  t.pc = target ∧ SameVisible s t ∧ SameShadow s t ∧ SamePending s t ∧ SameLatch s t ∧ SameCop0 s t ∧ SameRam s t
    ∧ SameBios s t ∧ Silent s t

/-- All but the pending load, the flag and the reports is unchanged. -/
def LoadFrame (s t : State) : Prop :=
  SameVisible s t ∧ SameShadow s t ∧ SamePc s t ∧ SameLatch s t ∧ SameCop0 s t ∧ SameRam s t ∧ SameBios s t

/-- All but RAM is unchanged. -/
def RamFrame (s t : State) : Prop :=
  SameVisible s t ∧ SameShadow s t ∧ SamePending s t ∧ SamePc s t ∧ SameLatch s t ∧ SameCop0 s t ∧ SameBios s t ∧ Silent s t

/-! ### Instructions by what they may change -/

/-- The general register an instruction stages in its own cycle. LW is not here: it writes a cycle later (43_load_store R161). -/
def destination : Instr → Option Reg
  | .lui rt _ => some rt
  | .ori rt _ _ => some rt
  | .andi rt _ _ => some rt
  | .addiu rt _ _ => some rt
  | .addi rt _ _ => some rt
  | .addu rd _ _ => some rd
  | .or rd _ _ => some rd
  | .sll rd _ _ => some rd
  | .sltu rd _ _ => some rd
  | .j _ => none
  | .jal _ => some 31#5
  | .jr _ => none
  | .bne _ _ _ => none
  | .lw _ _ _ => none
  | .sb _ _ _ => none
  | .sh _ _ _ => none
  | .sw _ _ _ => none
  | .mtc0 _ _ => none

/-- The address a control transfer goes to when it executes at `s`, if it transfers control (42_control_transfer R150 to
R153). -/
def transferTarget (i : Instr) (s : State) : Option Word :=
  match i with
  | .j target => some (jumpTarget s.pc target)
  | .jal target => some (jumpTarget s.pc target)
  | .jr rs => some (s.x rs)
  | .bne rs rt offset => if s.x rs ≠ s.x rt then some (branchTarget s.pc offset) else none
  | .lui _ _ => none
  | .ori _ _ _ => none
  | .andi _ _ _ => none
  | .addiu _ _ _ => none
  | .addi _ _ _ => none
  | .addu _ _ _ => none
  | .or _ _ _ => none
  | .sll _ _ _ => none
  | .sltu _ _ _ => none
  | .lw _ _ _ => none
  | .sb _ _ _ => none
  | .sh _ _ _ => none
  | .sw _ _ _ => none
  | .mtc0 _ _ => none

/-! ### Straight-line execution -/

/-- Execute instructions one after another, publishing after each (steps 5 and 6 of the cycle alone). -/
def execList : List Instr → State → Host.Outcome State Fault Refusal
  | [], s => .next s
  | i :: rest, s =>
    match exec i s with
    | .next t => execList rest t.publish
    | .fault r => .fault r
    | .refused r => .refused r

end Sys2Proof.Machine
end

