-- ==== Sys2Proof/Certificates/Slice0/Obligations.lean ====
section
/-! DEFINITION. The statements about the machine, from the numbered rules of spec/. Each docstring names the rules it
formalises. Where a statement rests on a decision the spec marks as its own (D<n>) or on a model's choice, the docstring says
so and names the log entry (notes/assumptions). Numeric opcode values are the spec's, from general knowledge (D17, log 1). -/

open Sys2Proof Sys2Proof.Machine

/-! ### Encoding -/

/-- 30_encoding R101: every field is the stated slice of the word, `imm` zero-extended, `offset` sign-extended. -/
def Obligations.FieldsAreSlices : Prop := ∀ w : Word,
  (opcodeField w).toNat = w.toNat / 2 ^ 26
    ∧ (rsField w).toNat = w.toNat / 2 ^ 21 % 2 ^ 5
    ∧ (rtField w).toNat = w.toNat / 2 ^ 16 % 2 ^ 5
    ∧ (rdField w).toNat = w.toNat / 2 ^ 11 % 2 ^ 5
    ∧ (shamtField w).toNat = w.toNat / 2 ^ 6 % 2 ^ 5
    ∧ (functField w).toNat = w.toNat % 2 ^ 6
    ∧ (zext16 (immField w)).toNat = w.toNat % 2 ^ 16
    ∧ (sext16 (immField w)).toInt
        = (if w.toNat % 2 ^ 16 < 2 ^ 15 then ((w.toNat % 2 ^ 16 : Nat) : Int) else ((w.toNat % 2 ^ 16 : Nat) : Int) - 2 ^ 16)
    ∧ (targetField w).toNat = w.toNat % 2 ^ 26

/-- 30_encoding R100: four bytes at increasing addresses compose a word little-endian, and the bytes decode as that word does.
(That fewer than four bytes are rejected is the model's choice, log 23, and no part of this.) -/
def Obligations.BytesDecodeLittleEndian : Prop := ∀ (b0 b1 b2 b3 : Byte) (rest : List Byte),
  (wordOfBytes b0 b1 b2 b3).toNat = b0.toNat + 2 ^ 8 * b1.toNat + 2 ^ 16 * b2.toNat + 2 ^ 24 * b3.toNat
    ∧ (∀ i, decodeWord (wordOfBytes b0 b1 b2 b3) = .ok i → decodeBytes (b0 :: b1 :: b2 :: b3 :: rest) = .ok (i, rest))
    ∧ (∀ r, decodeWord (wordOfBytes b0 b1 b2 b3) = .error r → decodeBytes (b0 :: b1 :: b2 :: b3 :: rest) = .error r)

/-- 30_encoding R106 to R109: the dispatch by opcode, then function code or coprocessor sub-opcode, and nothing else decodes.
The numeric values are the spec's from general knowledge (D17, log 1). -/
def Obligations.DispatchBySelectorFields : Prop := ∀ w : Word,
  (w.toNat / 2 ^ 26 = 0x00 ∧ w.toNat % 2 ^ 6 = 0x00 → decodeWord w = .ok (.sll (rdField w) (rtField w) (shamtField w)))
    ∧ (w.toNat / 2 ^ 26 = 0x00 ∧ w.toNat % 2 ^ 6 = 0x08 → decodeWord w = .ok (.jr (rsField w)))
    ∧ (w.toNat / 2 ^ 26 = 0x00 ∧ w.toNat % 2 ^ 6 = 0x21 → decodeWord w = .ok (.addu (rdField w) (rsField w) (rtField w)))
    ∧ (w.toNat / 2 ^ 26 = 0x00 ∧ w.toNat % 2 ^ 6 = 0x25 → decodeWord w = .ok (.or (rdField w) (rsField w) (rtField w)))
    ∧ (w.toNat / 2 ^ 26 = 0x00 ∧ w.toNat % 2 ^ 6 = 0x2B → decodeWord w = .ok (.sltu (rdField w) (rsField w) (rtField w)))
    ∧ (w.toNat / 2 ^ 26 = 0x02 → decodeWord w = .ok (.j (targetField w)))
    ∧ (w.toNat / 2 ^ 26 = 0x03 → decodeWord w = .ok (.jal (targetField w)))
    ∧ (w.toNat / 2 ^ 26 = 0x05 → decodeWord w = .ok (.bne (rsField w) (rtField w) (immField w)))
    ∧ (w.toNat / 2 ^ 26 = 0x08 → decodeWord w = .ok (.addi (rtField w) (rsField w) (immField w)))
    ∧ (w.toNat / 2 ^ 26 = 0x09 → decodeWord w = .ok (.addiu (rtField w) (rsField w) (immField w)))
    ∧ (w.toNat / 2 ^ 26 = 0x0C → decodeWord w = .ok (.andi (rtField w) (rsField w) (immField w)))
    ∧ (w.toNat / 2 ^ 26 = 0x0D → decodeWord w = .ok (.ori (rtField w) (rsField w) (immField w)))
    ∧ (w.toNat / 2 ^ 26 = 0x0F → decodeWord w = .ok (.lui (rtField w) (immField w)))
    ∧ (w.toNat / 2 ^ 26 = 0x10 ∧ w.toNat / 2 ^ 21 % 2 ^ 5 = 0x04 → decodeWord w = .ok (.mtc0 (rtField w) (rdField w)))
    ∧ (w.toNat / 2 ^ 26 = 0x23 → decodeWord w = .ok (.lw (rtField w) (rsField w) (immField w)))
    ∧ (w.toNat / 2 ^ 26 = 0x28 → decodeWord w = .ok (.sb (rtField w) (rsField w) (immField w)))
    ∧ (w.toNat / 2 ^ 26 = 0x29 → decodeWord w = .ok (.sh (rtField w) (rsField w) (immField w)))
    ∧ (w.toNat / 2 ^ 26 = 0x2B → decodeWord w = .ok (.sw (rtField w) (rsField w) (immField w)))
    ∧ (w.toNat / 2 ^ 26 = 0x00 → w.toNat % 2 ^ 6 ∉ [0x00, 0x08, 0x21, 0x25, 0x2B] → ∀ i, decodeWord w ≠ .ok i)
    ∧ (w.toNat / 2 ^ 26 = 0x10 → w.toNat / 2 ^ 21 % 2 ^ 5 ≠ 0x04 → ∀ i, decodeWord w ≠ .ok i)
    ∧ (w.toNat / 2 ^ 26 ∉ [0x00, 0x02, 0x03, 0x05, 0x08, 0x09, 0x0C, 0x0D, 0x0F, 0x10, 0x23, 0x28, 0x29, 0x2B]
        → ∀ i, decodeWord w ≠ .ok i)

/-- 30_encoding R101, R102, R106: decoding an encoded instruction gives it back, for every instruction and every operand. -/
def Obligations.DecodeEncodeRoundTrip : Prop := ∀ i : Instr, decodeWord (encode i) = .ok i

/-- 30_encoding R111 (the spec's decision D16, log 15): the bits a rule does not read do not matter, and encoding a decoded
instruction gives its word back with those bits zero (the zeros are the model's choice, log 23). -/
def Obligations.UnusedBitsDoNotMatter : Prop := ∀ (w : Word) (i : Instr), decodeWord w = .ok i →
  encode i = w &&& i.row.used ∧ ∀ w' : Word, w' &&& i.row.used = w &&& i.row.used → decodeWord w' = .ok i

/-- 30_encoding introduction and spec/opcode_table.json: a word decodes exactly when a row of the table covers it, and then
that row is the only one and is the decoded instruction's. -/
def Obligations.OneTableRowPerWord : Prop :=
  (∀ w : Word, (∃ i, decodeWord w = .ok i) ↔ ∃ r ∈ opcodeTable, r.covers w = true)
    ∧ ∀ (w : Word) (i : Instr), decodeWord w = .ok i → ∀ r ∈ opcodeTable, (r.covers w = true ↔ r = i.row)

/-- Words the spec writes out (95_test_vectors), one of each family, and two it says do not decode. Opcode values: D17, log 1. -/
def Obligations.SanityWordsDecode : Prop :=
  decodeWord 0x3C081234#32 = .ok (.lui 8 0x1234) ∧ decodeWord 0x35085678#32 = .ok (.ori 8 8 0x5678)
    ∧ decodeWord 0x0109502B#32 = .ok (.sltu 10 8 9) ∧ decodeWord 0x00095100#32 = .ok (.sll 10 9 4)
    ∧ decodeWord 0x1520FFFE#32 = .ok (.bne 9 0 0xFFFE) ∧ decodeWord 0x03E00008#32 = .ok (.jr 31)
    ∧ decodeWord 0xAC080000#32 = .ok (.sw 8 0 0) ∧ decodeWord 0x40886000#32 = .ok (.mtc0 8 12)
    ∧ decodeWord 0x10000001#32 = .error (.opcode 0x04) ∧ decodeWord 0x0000000C#32 = .error (.special 0x0C)

/-! ### Immediate arithmetic and logic -/

/-- 40_alu_immediate R130. The opcode value is D17 (log 1), the unchecked fields D16 (log 15). -/
def Obligations.LuiLoadsUpperHalf : Prop :=
  (∀ (x rt : Reg) (imm : Half), decodeWord (0b001111#6 ++ x ++ rt ++ imm) = .ok (.lui rt imm))
    ∧ ∀ (rt : Reg) (imm : Half) (s : State), ∃ (t : State) (v : Word), exec (.lui rt imm) s = .next t
      ∧ v.toNat = imm.toNat * 2 ^ 16 ∧ StagesOnly rt v s t

/-- 40_alu_immediate R131. The opcode value is D17 (log 1). -/
def Obligations.OriSetsLowBits : Prop :=
  (∀ (rs rt : Reg) (imm : Half), decodeWord (0b001101#6 ++ rs ++ rt ++ imm) = .ok (.ori rt rs imm))
    ∧ ∀ (rt rs : Reg) (imm : Half) (s : State), ∃ (t : State) (v : Word), exec (.ori rt rs imm) s = .next t
      ∧ (∀ k < 32, v.getLsbD k = ((s.x rs).getLsbD k || (decide (k < 16) && imm.getLsbD k))) ∧ StagesOnly rt v s t

/-- 40_alu_immediate R132. The opcode value is D17 (log 1). -/
def Obligations.AndiKeepsLowBits : Prop :=
  (∀ (rs rt : Reg) (imm : Half), decodeWord (0b001100#6 ++ rs ++ rt ++ imm) = .ok (.andi rt rs imm))
    ∧ ∀ (rt rs : Reg) (imm : Half) (s : State), ∃ (t : State) (v : Word), exec (.andi rt rs imm) s = .next t
      ∧ (∀ k < 32, v.getLsbD k = ((s.x rs).getLsbD k && (decide (k < 16) && imm.getLsbD k))) ∧ StagesOnly rt v s t

/-- 40_alu_immediate R133. The opcode value is D17 (log 1). -/
def Obligations.AddiuWraps : Prop :=
  (∀ (rs rt : Reg) (imm : Half), decodeWord (0b001001#6 ++ rs ++ rt ++ imm) = .ok (.addiu rt rs imm))
    ∧ ∀ (rt rs : Reg) (imm : Half) (s : State), ∃ (t : State) (v : Word), exec (.addiu rt rs imm) s = .next t
      ∧ (v.toNat : Int) = ((s.x rs).toNat + imm.toInt) % 2 ^ 32 ∧ StagesOnly rt v s t

/-- 40_alu_immediate, ADDI: the sum where it is in range, the halt where it is not, whatever the destination. That an
overflowing ADDI writes no register is the spec's decision D10 (log 11), the opcode value D17 (log 1), the reason's name D27
(log 18), and that a halt is a next state D8 (log 8). -/
def Obligations.AddiChecksOverflow : Prop :=
  (∀ (rs rt : Reg) (imm : Half), decodeWord (0b001000#6 ++ rs ++ rt ++ imm) = .ok (.addi rt rs imm))
    ∧ ∀ (rt rs : Reg) (imm : Half) (s : State),
      (-2 ^ 31 ≤ (s.x rs).toInt + imm.toInt ∧ (s.x rs).toInt + imm.toInt ≤ 2 ^ 31 - 1 →
        ∃ (t : State) (v : Word), exec (.addi rt rs imm) s = .next t
          ∧ v.toInt = (s.x rs).toInt + imm.toInt ∧ StagesOnly rt v s t)
      ∧ (¬(-2 ^ 31 ≤ (s.x rs).toInt + imm.toInt ∧ (s.x rs).toInt + imm.toInt ≤ 2 ^ 31 - 1) →
        ∃ t, exec (.addi rt rs imm) s = .next t ∧ SameMachine s t
          ∧ Halts (.addiOverflow (0b001000#6 ++ rs ++ rt ++ imm) (s.x rs)) s t)

/-! ### Register arithmetic, logic and shift -/

/-- 41_alu_register R140. The opcode value is D17 (log 1), the unchecked fields D16 (log 15). -/
def Obligations.AdduWraps : Prop :=
  (∀ (rs rt rd x : Reg), decodeWord (0b000000#6 ++ rs ++ rt ++ rd ++ x ++ 0b100001#6) = .ok (.addu rd rs rt))
    ∧ ∀ (rd rs rt : Reg) (s : State), ∃ (t : State) (v : Word), exec (.addu rd rs rt) s = .next t
      ∧ v.toNat = ((s.x rs).toNat + (s.x rt).toNat) % 2 ^ 32 ∧ StagesOnly rd v s t

/-- 41_alu_register R141. The opcode value is D17 (log 1), the unchecked fields D16 (log 15). -/
def Obligations.OrJoinsBits : Prop :=
  (∀ (rs rt rd x : Reg), decodeWord (0b000000#6 ++ rs ++ rt ++ rd ++ x ++ 0b100101#6) = .ok (.or rd rs rt))
    ∧ ∀ (rd rs rt : Reg) (s : State), ∃ (t : State) (v : Word), exec (.or rd rs rt) s = .next t
      ∧ (∀ k < 32, v.getLsbD k = ((s.x rs).getLsbD k || (s.x rt).getLsbD k)) ∧ StagesOnly rd v s t

/-- 41_alu_register R142. The opcode value is D17 (log 1), the unchecked fields D16 (log 15). -/
def Obligations.SllMultipliesByPower : Prop :=
  (∀ (x rt rd shamt : BitVec 5), decodeWord (0b000000#6 ++ x ++ rt ++ rd ++ shamt ++ 0b000000#6) = .ok (.sll rd rt shamt))
    ∧ ∀ (rd rt : Reg) (shamt : BitVec 5) (s : State), ∃ (t : State) (v : Word), exec (.sll rd rt shamt) s = .next t
      ∧ v.toNat = (s.x rt).toNat * 2 ^ shamt.toNat % 2 ^ 32 ∧ StagesOnly rd v s t

/-- 41_alu_register R143. The opcode value is D17 (log 1), the unchecked fields D16 (log 15). -/
def Obligations.SltuComparesUnsigned : Prop :=
  (∀ (rs rt rd x : Reg), decodeWord (0b000000#6 ++ rs ++ rt ++ rd ++ x ++ 0b101011#6) = .ok (.sltu rd rs rt))
    ∧ ∀ (rd rs rt : Reg) (s : State), ∃ (t : State) (v : Word), exec (.sltu rd rs rt) s = .next t
      ∧ ((s.x rs).toNat < (s.x rt).toNat → v.toNat = 1) ∧ ((s.x rt).toNat ≤ (s.x rs).toNat → v.toNat = 0)
      ∧ StagesOnly rd v s t

/-! ### Control transfer -/

/-- 42_control_transfer, J. That the high four bits come from the program counter as it stands in step 5 is the spec's
decision D14 (log 13); the opcode value is D17 (log 1). -/
def Obligations.JumpStaysInRegion : Prop :=
  (∀ target : BitVec 26, decodeWord (0b000010#6 ++ target) = .ok (.j target))
    ∧ ∀ (target : BitVec 26) (s : State), ∃ (t : State) (T : Word), exec (.j target) s = .next t
      ∧ T.toNat = s.pc.toNat / 2 ^ 28 * 2 ^ 28 + 4 * target.toNat ∧ JumpsOnly T s t

/-- 42_control_transfer, JAL: the link is the program counter in step 5 (90_conflicts C3), the target as J's (D14, log 13), the
opcode value D17 (log 1). -/
def Obligations.JumpAndLinkStagesPc : Prop :=
  (∀ target : BitVec 26, decodeWord (0b000011#6 ++ target) = .ok (.jal target))
    ∧ ∀ (target : BitVec 26) (s : State), ∃ t, exec (.jal target) s = .next t
      ∧ t.pc.toNat = s.pc.toNat / 2 ^ 28 * 2 ^ 28 + 4 * target.toNat
      ∧ (∀ r : Reg, t.shadow[r.toNat]'r.isLt = if r = 31#5 then s.pc else s.shadow[r.toNat]'r.isLt)
      ∧ SameVisible s t ∧ SamePending s t ∧ SameLatch s t ∧ SameCop0 s t ∧ SameRam s t ∧ SameBios s t ∧ Silent s t

/-- 42_control_transfer R152: JR takes the register as it is, aligned or not; a misaligned program counter halts at the next
fetch, in a cycle that still executes the latched word (decision D8, log 8; reasons in order, D27, logs 9 and 18; opcode value
D17, log 1; unchecked fields D16, log 15). -/
def Obligations.JumpRegisterIgnoresAlignment : Prop :=
  (∀ (rs x y z : Reg), decodeWord (0b000000#6 ++ rs ++ x ++ y ++ z ++ 0b001000#6) = .ok (.jr rs))
    ∧ (∀ (rs : Reg) (s : State), ∃ t, exec (.jr rs) s = .next t ∧ JumpsOnly (s.x rs) s t)
    ∧ ∀ (s b : State) (i : Instr), s.Running → s.pc.toNat % 4 ≠ 0 → decodeWord s.ni = .ok i →
      exec i s.beginCycle = .next b → ∃ t rest, step s = .next t ∧ t.halted = true ∧ t.ni = 0#32
        ∧ t.diags = .halt (.misalignedRead s.pc) :: rest ∧ t.regs = b.shadow ∧ t.pc = b.pc ∧ t.ram = b.ram

/-- 42_control_transfer R153. The opcode value is D17 (log 1). -/
def Obligations.BneBranchesWhenDifferent : Prop :=
  (∀ (rs rt : Reg) (offset : Half), decodeWord (0b000101#6 ++ rs ++ rt ++ offset) = .ok (.bne rs rt offset))
    ∧ ∀ (rs rt : Reg) (offset : Half) (s : State),
      (s.x rs ≠ s.x rt → ∃ (t : State) (T : Word), exec (.bne rs rt offset) s = .next t
        ∧ (T.toNat : Int) = (s.pc.toNat + 4 * offset.toInt - 4) % 2 ^ 32 ∧ JumpsOnly T s t)
      ∧ (s.x rs = s.x rt → exec (.bne rs rt offset) s = .next s)

/-! ### Loads and stores -/

/-- 43_load_store, addressing and store data: the effective address is base plus signed displacement modulo 2^32, from the
word's fields, the data is truncated to the width, and no load or store modifies a register file. That one which halts
(misaligned, or in an unhandled region) also answers a next state is the spec's decision D8 as log 8 reads it. -/
def Obligations.EffectiveAddressAndData : Prop :=
  (∀ (s : State) (base : Reg) (offset : Half), ((s.ea base offset).toNat : Int) = ((s.x base).toNat + offset.toInt) % 2 ^ 32)
    ∧ (∀ (s : State) (rt : Reg), (s.storeData .byte rt).toNat = (s.x rt).toNat % 2 ^ 8
      ∧ (s.storeData .half rt).toNat = (s.x rt).toNat % 2 ^ 16 ∧ s.storeData .word rt = s.x rt)
    ∧ (∀ (w : Word) (rt base : Reg) (offset : Half),
      ∀ i ∈ [Instr.lw rt base offset, .sb rt base offset, .sh rt base offset, .sw rt base offset], decodeWord w = .ok i →
        base.toNat = w.toNat / 2 ^ 21 % 2 ^ 5 ∧ rt.toNat = w.toNat / 2 ^ 16 % 2 ^ 5 ∧ offset.toNat = w.toNat % 2 ^ 16)
    ∧ ∀ (s : State) (rt base : Reg) (offset : Half),
      ∀ i ∈ [Instr.lw rt base offset, .sb rt base offset, .sh rt base offset, .sw rt base offset],
        ∃ t, exec i s = .next t ∧ SameVisible s t ∧ SameShadow s t

/-- 43_load_store, LW. An aligned word of Main or BIOS becomes the pending load, little-endian; every other access halts with
the pending load (rt, 0), a value that for an unhandled region is the spec's decision D25 (log 17). The halt reasons' names
are D27's (log 18), the opcode value D17's (log 1); that a halt is a next state is D8 (log 8). -/
def Obligations.LwStagesPendingLoad : Prop :=
  (∀ (base rt : Reg) (offset : Half), decodeWord (0b100011#6 ++ base ++ rt ++ offset) = .ok (.lw rt base offset))
    ∧ ∀ (rt base : Reg) (offset : Half) (s : State), s.isolated = false →
      ((s.ea base offset).toNat % 4 = 0 → classify (translateVa (s.ea base offset)) = .main →
        ∃ t, exec (.lw rt base offset) s = .next t ∧ t.pl.idx = rt ∧ LoadFrame s t ∧ Silent s t
          ∧ ∀ o, o = (translateVa (s.ea base offset)).toNat % 0x200000 →
            t.pl.val.toNat = (s.ram.read o).toNat + 2 ^ 8 * (s.ram.read (o + 1)).toNat
              + 2 ^ 16 * (s.ram.read (o + 2)).toNat + 2 ^ 24 * (s.ram.read (o + 3)).toNat)
      ∧ ((s.ea base offset).toNat % 4 = 0 → classify (translateVa (s.ea base offset)) = .bios →
        ∃ t, exec (.lw rt base offset) s = .next t ∧ t.pl.idx = rt ∧ LoadFrame s t ∧ Silent s t
          ∧ ∀ o, o = (translateVa (s.ea base offset)).toNat % 0x80000 →
            t.pl.val.toNat = (s.bios.read o).toNat + 2 ^ 8 * (s.bios.read (o + 1)).toNat
              + 2 ^ 16 * (s.bios.read (o + 2)).toNat + 2 ^ 24 * (s.bios.read (o + 3)).toNat)
      ∧ ((s.ea base offset).toNat % 4 ≠ 0 →
        ∃ t, exec (.lw rt base offset) s = .next t ∧ t.pl = ⟨rt, 0#32⟩ ∧ LoadFrame s t
          ∧ Halts (.misalignedRead (s.ea base offset)) s t)
      ∧ ((s.ea base offset).toNat % 4 = 0 → ∀ tag, classify (translateVa (s.ea base offset)) = tag →
        tag ∈ [RegionTag.expansion1, .scratchpad, .hardwareRegs, .io, .unmapped] →
          ∃ t, exec (.lw rt base offset) s = .next t ∧ t.pl = ⟨rt, 0#32⟩ ∧ LoadFrame s t
            ∧ Halts (.unhandledRead (s.ea base offset) (translateVa (s.ea base offset)) tag) s t)

/-- 43_load_store R162, 20_memory R74: SB with the gate open, by region; no byte of any memory changes. Whether a device write
is reported is open (90_conflicts C8, log 10). Reports are the model's record (log 9), reason names D27 (log 18), the opcode value
D17 (log 1); that a halt is a next state is D8 (log 8). -/
def Obligations.SbChangesNoByte : Prop :=
  (∀ (base rt : Reg) (offset : Half), decodeWord (0b101000#6 ++ base ++ rt ++ offset) = .ok (.sb rt base offset))
    ∧ ∀ (rt base : Reg) (offset : Half) (s : State), s.isolated = false → ∀ tag,
      classify (translateVa (s.ea base offset)) = tag →
        ∃ t, exec (.sb rt base offset) s = .next t ∧ SameMachine s t
          ∧ (tag = .main → Reports (.narrowStoreIgnored (s.ea base offset) .byte (s.storeData .byte rt)) s t)
          ∧ (tag = .bios → Reports (.firmwareWriteRejected (s.ea base offset) .byte (s.storeData .byte rt)) s t)
          ∧ (tag ∈ [RegionTag.hardwareRegs, .io] →
              Silent s t ∨ Reports (.deviceWriteIgnored (s.ea base offset) .byte (s.storeData .byte rt)) s t)
          ∧ (tag ∈ [RegionTag.expansion1, .scratchpad, .unmapped] →
              Halts (.unhandledWrite (s.ea base offset) (translateVa (s.ea base offset)) tag (s.storeData .byte rt)) s t)

/-- 43_load_store R163, 20_memory R74: SH with the gate open: a misaligned one halts before the region is looked at, an
aligned one acts by region as SB does; no byte of any memory changes. Logs 1, 8, 9, 10 and 18 as for SB. -/
def Obligations.ShChangesNoByte : Prop :=
  (∀ (base rt : Reg) (offset : Half), decodeWord (0b101001#6 ++ base ++ rt ++ offset) = .ok (.sh rt base offset))
    ∧ ∀ (rt base : Reg) (offset : Half) (s : State), s.isolated = false → ∀ tag,
      classify (translateVa (s.ea base offset)) = tag →
        ∃ t, exec (.sh rt base offset) s = .next t ∧ SameMachine s t
          ∧ ((s.ea base offset).toNat % 2 ≠ 0 → Halts (.misalignedWrite (s.ea base offset) 2) s t)
          ∧ ((s.ea base offset).toNat % 2 = 0 →
            (tag = .main → Reports (.narrowStoreIgnored (s.ea base offset) .half (s.storeData .half rt)) s t)
            ∧ (tag = .bios → Reports (.firmwareWriteRejected (s.ea base offset) .half (s.storeData .half rt)) s t)
            ∧ (tag ∈ [RegionTag.hardwareRegs, .io] →
                Silent s t ∨ Reports (.deviceWriteIgnored (s.ea base offset) .half (s.storeData .half rt)) s t)
            ∧ (tag ∈ [RegionTag.expansion1, .scratchpad, .unmapped] →
                Halts (.unhandledWrite (s.ea base offset) (translateVa (s.ea base offset)) tag (s.storeData .half rt)) s t))

/-- 43_load_store, SW to Main with the gate open: the four bytes at the address's RAM offset become the register's,
little-endian, and nothing else changes. That writes use the read mask is the spec's decision D12 (log 12), the opcode
value D17 (log 1). -/
def Obligations.SwWritesFourBytes : Prop :=
  (∀ (base rt : Reg) (offset : Half), decodeWord (0b101011#6 ++ base ++ rt ++ offset) = .ok (.sw rt base offset))
    ∧ ∀ (rt base : Reg) (offset : Half) (s : State), s.isolated = false → s.ram.wf = true →
      (s.ea base offset).toNat % 4 = 0 → classify (translateVa (s.ea base offset)) = .main →
        ∃ t, exec (.sw rt base offset) s = .next t ∧ RamFrame s t
          ∧ ∀ o, o = (translateVa (s.ea base offset)).toNat % 0x200000 → ∀ a,
            (∀ k < 4, a = o + k → (t.ram.read a).toNat = (s.x rt).toNat / 2 ^ (8 * k) % 2 ^ 8)
              ∧ (¬(o ≤ a ∧ a < o + 4) → t.ram.read a = s.ram.read a)

/-- 43_load_store, SW elsewhere with the gate open: misaligned it halts, and aligned outside Main it acts by region; no byte
of any memory changes. Logs 8, 9, 10 and 18 as for SB. -/
def Obligations.SwOutsideMain : Prop :=
  ∀ (rt base : Reg) (offset : Half) (s : State), s.isolated = false → ∀ tag, classify (translateVa (s.ea base offset)) = tag →
    ((s.ea base offset).toNat % 4 ≠ 0 →
      ∃ t, exec (.sw rt base offset) s = .next t ∧ SameMachine s t ∧ Halts (.misalignedWrite (s.ea base offset) 4) s t)
    ∧ ((s.ea base offset).toNat % 4 = 0 → tag ≠ .main →
      ∃ t, exec (.sw rt base offset) s = .next t ∧ SameMachine s t
        ∧ (tag = .bios → Reports (.firmwareWriteRejected (s.ea base offset) .word (s.x rt)) s t)
        ∧ (tag ∈ [RegionTag.hardwareRegs, .io] →
            Silent s t ∨ Reports (.deviceWriteIgnored (s.ea base offset) .word (s.x rt)) s t)
        ∧ (tag ∈ [RegionTag.expansion1, .scratchpad, .unmapped] →
            Halts (.unhandledWrite (s.ea base offset) (translateVa (s.ea base offset)) tag (s.x rt)) s t))

/-- 20_memory R73: the gate is bit 16 of `C0[12]`; closed, LW, SB, SH and SW change nothing and cannot halt, whatever the
address, and report the skipped access. -/
def Obligations.IsolationSkipsEveryAccess : Prop :=
  (∀ s : State, s.isolated = true ↔ s.cop0[12].toNat / 2 ^ 16 % 2 = 1)
    ∧ ∀ (rt base : Reg) (offset : Half) (s : State), s.isolated = true →
      (∃ t, exec (.lw rt base offset) s = .next t ∧ SameMachine s t ∧ Reports .loadIsolated s t)
      ∧ (∃ t, exec (.sb rt base offset) s = .next t ∧ SameMachine s t ∧ Reports (.storeIsolated .byte) s t)
      ∧ (∃ t, exec (.sh rt base offset) s = .next t ∧ SameMachine s t ∧ Reports (.storeIsolated .half) s t)
      ∧ (∃ t, exec (.sw rt base offset) s = .next t ∧ SameMachine s t ∧ Reports (.storeIsolated .word) s t)

/-- 20_memory R71, R72: a store of any width, aligned to its width, to HardwareRegs, IO or BIOS changes no state and does not
halt; to BIOS it is reported. -/
def Obligations.DeviceAndFirmwareStoresInert : Prop :=
  ∀ (rt base : Reg) (offset : Half) (s : State), s.isolated = false →
    classify (translateVa (s.ea base offset)) ∈ [RegionTag.hardwareRegs, .io, .bios] →
      ∀ p ∈ [(Instr.sb rt base offset, 1), (.sh rt base offset, 2), (.sw rt base offset, 4)],
        (s.ea base offset).toNat % p.2 = 0 → ∃ t, exec p.1 s = .next t ∧ SameMachine s t ∧ t.halted = s.halted
          ∧ (classify (translateVa (s.ea base offset)) = .bios →
              ∃ w v, t.diags = s.diags ++ [.firmwareWriteRejected (s.ea base offset) w v])

/-! ### Coprocessor 0 -/

/-- 44_coprocessor0, MTC0: register 12 takes all 32 bits at once, any other register number is reported and changes nothing.
That the number is the `rd` field, and that 16 to 31 are unrecognized too, is the spec's decision D15 (log 14); opcode values D17
(log 1), unchecked fields D16 (log 15). -/
def Obligations.MoveToStatusRegister : Prop :=
  (∀ (rt rd : Reg) (x : BitVec 11), decodeWord (0b010000#6 ++ 0b00100#5 ++ rt ++ rd ++ x) = .ok (.mtc0 rt rd))
    ∧ ∀ (rt rd : Reg) (s : State),
      (rd = 12#5 → ∃ t, exec (.mtc0 rt rd) s = .next t
        ∧ (∀ i : Fin 16, t.cop0[i] = if i = 12 then s.x rt else s.cop0[i])
        ∧ SameVisible s t ∧ SameShadow s t ∧ SamePending s t ∧ SamePc s t ∧ SameLatch s t ∧ SameRam s t ∧ SameBios s t
        ∧ Silent s t)
      ∧ (rd ≠ 12#5 → ∃ t, exec (.mtc0 rt rd) s = .next t ∧ SameMachine s t ∧ Reports (.cop0WriteIgnored rd) s t)

/-! ### Addresses and memory -/

/-- 20_memory R61: translation, segment by segment. -/
def Obligations.TranslateBySegment : Prop := ∀ va : Word,
  (va.toNat < 0x80000000 → translateVa va = va)
    ∧ (0x80000000 ≤ va.toNat → va.toNat < 0xA0000000 → (translateVa va).toNat = va.toNat - 0x80000000)
    ∧ (0xA0000000 ≤ va.toNat → va.toNat < 0xC0000000 → (translateVa va).toNat = va.toNat - 0xA0000000)
    ∧ (0xC0000000 ≤ va.toNat → translateVa va = va)

/-- 20_memory, the physical range of each tag (the one-sided rows of classify are read literally, decision D13, log 19), and
translation is idempotent. -/
def Obligations.RegionsByRange : Prop :=
  (∀ pa : Word, (classify pa = .main ↔ pa.toNat < 0x00800000)
    ∧ (classify pa = .expansion1 ↔ 0x1F000000 ≤ pa.toNat ∧ pa.toNat < 0x1F800000)
    ∧ (classify pa = .scratchpad ↔
        0x00800000 ≤ pa.toNat ∧ pa.toNat < 0x1F000000 ∨ 0x1F800000 ≤ pa.toNat ∧ pa.toNat < 0x1F801000)
    ∧ (classify pa = .hardwareRegs ↔ 0x1F801000 ≤ pa.toNat ∧ pa.toNat < 0x1F803000)
    ∧ (classify pa = .bios ↔ 0x1FC00000 ≤ pa.toNat ∧ pa.toNat < 0x1FC80000)
    ∧ (classify pa = .io ↔ 0xFFFE0000 ≤ pa.toNat ∧ pa.toNat < 0xFFFE1000)
    ∧ (classify pa = .unmapped ↔ 0x1F803000 ≤ pa.toNat ∧ pa.toNat < 0x1FC00000
        ∨ 0x1FC80000 ≤ pa.toNat ∧ pa.toNat < 0xFFFE0000 ∨ 0xFFFE1000 ≤ pa.toNat))
    ∧ ∀ va : Word, translateVa (translateVa va) = translateVa va

/-- 20_memory, the RAM mirrors and the fixed points of the map: physical addresses 2 MiB apart in Main reach the same bytes,
and RAM and firmware appear in KUSEG, KSEG0 and KSEG1. -/
def Obligations.MirrorsAndAliases : Prop :=
  (∀ (s : State) (o k base : Nat), o < 0x200000 → o % 4 = 0 → k < 4 → base ∈ [0, 0x80000000, 0xA0000000] →
    readWord s (BitVec.ofNat 32 (base + k * 0x200000 + o)) = .ok (s.ram.read32 o))
    ∧ ∀ (s : State) (o base : Nat), o < 0x80000 → o % 4 = 0 → base ∈ [0x1FC00000, 0x9FC00000, 0xBFC00000] →
      readWord s (BitVec.ofNat 32 (base + o)) = .ok (s.bios.read32 o)

/-- 20_memory, single-agent consistency: after an SW to Main, a read of the same RAM word through any alias or mirror gives
the word stored, and a read of any other word gives what it gave before (decision D12, log 12). -/
def Obligations.ReadGivesLastWrite : Prop :=
  ∀ (rt base : Reg) (offset : Half) (s t : State) (va : Word), s.isolated = false → s.ram.wf = true →
    (s.ea base offset).toNat % 4 = 0 → classify (translateVa (s.ea base offset)) = .main →
    exec (.sw rt base offset) s = .next t → va.toNat % 4 = 0 →
      (classify (translateVa va) = .main →
          (translateVa va).toNat % 0x200000 = (translateVa (s.ea base offset)).toNat % 0x200000 → readWord t va = .ok (s.x rt))
      ∧ (classify (translateVa va) = .main →
          (translateVa va).toNat % 0x200000 ≠ (translateVa (s.ea base offset)).toNat % 0x200000 →
            readWord t va = readWord s va)
      ∧ (classify (translateVa va) ≠ .main → readWord t va = readWord s va)

/-! ### The cycle -/

/-- 10_state, the cycle's steps 1, 3, 4, 5 and 6: a running engine executes the word in its latch, decoded or not, after the
program counter has advanced and the pending load has been committed and emptied, and then publishes the shadow file. That a
word that decodes to nothing halts and its cycle still publishes rests on 30_encoding (unimplemented instruction),
60_exceptions (the halt) and the spec's decision D8 (log 8). -/
def Obligations.StepRunsLatchedInstruction : Prop :=
  ∀ s : State, s.Running →
    s.beginCycle.pc = s.pc + 4#32 ∧ s.beginCycle.pl = ⟨0#5, 0#32⟩
      ∧ (∀ r : Reg, s.beginCycle.shadow[r.toNat]'r.isLt
          = if r = s.pl.idx ∧ s.pl.idx ≠ 0#5 then s.pl.val else s.shadow[r.toNat]'r.isLt)
      ∧ s.beginCycle.regs = s.regs ∧ s.beginCycle.cop0 = s.cop0 ∧ s.beginCycle.ram = s.ram ∧ s.beginCycle.bios = s.bios
      ∧ (∀ i, decodeWord s.ni = .ok i → ∃ b, exec i s.beginCycle = .next b ∧ step s = .next { b with regs := b.shadow })
      ∧ ((∀ i, decodeWord s.ni ≠ .ok i) →
          step s = .next { s.beginCycle.unimplemented s.ni with regs := s.beginCycle.shadow })

/-- 10_state, step 2 of the cycle: the latch takes the word at the program counter, little-endian, with no regard to cache
isolation (D19, log 16); where the address is misaligned or in no backed region it takes 0 (D25, log 17), the engine halts,
and the fetch's reason comes first (D27, log 18); that this cycle is a next state is D8 (log 8). -/
def Obligations.FetchFillsLatch : Prop := ∀ s t : State, step s = .next t →
  (s.pc.toNat % 4 = 0 → classify (translateVa s.pc) = .main → ∀ o, o = (translateVa s.pc).toNat % 0x200000 →
    t.ni.toNat = (s.ram.read o).toNat + 2 ^ 8 * (s.ram.read (o + 1)).toNat
      + 2 ^ 16 * (s.ram.read (o + 2)).toNat + 2 ^ 24 * (s.ram.read (o + 3)).toNat)
    ∧ (s.pc.toNat % 4 = 0 → classify (translateVa s.pc) = .bios → ∀ o, o = (translateVa s.pc).toNat % 0x80000 →
      t.ni.toNat = (s.bios.read o).toNat + 2 ^ 8 * (s.bios.read (o + 1)).toNat
        + 2 ^ 16 * (s.bios.read (o + 2)).toNat + 2 ^ 24 * (s.bios.read (o + 3)).toNat)
    ∧ (s.pc.toNat % 4 ≠ 0 → t.ni = 0#32 ∧ t.halted = true ∧ ∃ rest, t.diags = .halt (.misalignedRead s.pc) :: rest)
    ∧ (s.pc.toNat % 4 = 0 → classify (translateVa s.pc) ≠ .main → classify (translateVa s.pc) ≠ .bios →
      t.ni = 0#32 ∧ t.halted = true
        ∧ ∃ rest, t.diags = .halt (.unhandledRead s.pc (translateVa s.pc) (classify (translateVa s.pc))) :: rest)

/-- 30_encoding R110: a word that decodes to nothing halts, naming the word and its fields, and has no other effect: the cycle
around it is as ever. -/
def Obligations.UnimplementedWordHalts : Prop :=
  ∀ s : State, s.Running → (∀ i, decodeWord s.ni ≠ .ok i) → ∃ t before, step s = .next t ∧ t.halted = true
    ∧ t.diags = before ++ [.halt (.unimplemented s.ni (BitVec.ofNat 6 (s.ni.toNat / 2 ^ 26)) (BitVec.ofNat 6 s.ni.toNat))]
    ∧ (∀ r : Reg, t.regs[r.toNat]'r.isLt = if r = s.pl.idx ∧ s.pl.idx ≠ 0#5 then s.pl.val else s.shadow[r.toNat]'r.isLt)
    ∧ t.pl = ⟨0#5, 0#32⟩ ∧ t.pc = s.pc + 4#32 ∧ t.cop0 = s.cop0 ∧ t.ram = s.ram ∧ t.bios = s.bios

/-- 10_state, a halted engine takes no cycle (the spec's decision D9; that a halting cycle is a next state and the step after
it the fault is log 8), and nothing else ever makes a step fault or refuse. -/
def Obligations.OnlyAHaltedEngineFaults : Prop :=
  (∀ s : State, s.halted = true → step s = .fault (.halted (haltReasons s.diags)))
    ∧ (∀ (s : State) (f : Fault), step s = .fault f → s.halted = true)
    ∧ ∀ (s : State) (r : Refusal), step s ≠ .refused r

/-- 10_state and 70_reset_and_hazards: no instruction is ever held back; every instruction executes in every state, and every
cycle of a running engine completes. That a cycle which raises a halt also answers a next state is the spec's decision D8 as
log 8 reads it. -/
def Obligations.EveryCycleCompletes : Prop :=
  (∀ (i : Instr) (s : State), ∃ t, exec i s = .next t) ∧ ∀ s : State, s.Running → ∃ t, step s = .next t

/-- 10_state and 60_exceptions: the flag is set exactly when a halt was raised, at most one by the fetch and one by the
instruction, and no instruction clears it. That a halting cycle is a next state, and that both can halt in
one cycle, is decision D8 (log 8); that halts are recorded with their reasons is log 9, the reasons' names D27 (log 18). -/
def Obligations.HaltedExactlyWhenRaised : Prop :=
  (∀ s t : State, step s = .next t →
    (t.halted = true ↔ haltReasons t.diags ≠ []) ∧ (haltReasons t.diags).length ≤ 2)
    ∧ ∀ (i : Instr) (s t : State), s.halted = true → exec i s = .next t → t.halted = true

/-- 60_exceptions, precision: when the instruction of a cycle halts and its fetch did not, the load before it has landed, the
program counter has advanced, the latch holds the next word, and the instruction has had no effect but LW's pending load
(rt, 0) (decisions D8, D10, D25; logs 8, 11, 17). -/
def Obligations.HaltIsPrecise : Prop :=
  ∀ (s t : State) (w : Word), readWord s s.pc = .ok w → step s = .next t → t.halted = true →
    (∀ r : Reg, t.regs[r.toNat]'r.isLt = if r = s.pl.idx ∧ s.pl.idx ≠ 0#5 then s.pl.val else s.shadow[r.toNat]'r.isLt)
      ∧ t.pc = s.pc + 4#32 ∧ t.ni = w ∧ t.cop0 = s.cop0 ∧ t.ram = s.ram ∧ t.bios = s.bios
      ∧ (t.pl = ⟨0#5, 0#32⟩ ∨ ∃ rt base offset, decodeWord s.ni = .ok (.lw rt base offset) ∧ t.pl = ⟨rt, 0#32⟩)

/-! ### Invariants and whole-machine rules -/

/-- The invariant of 10_state and 20_memory (register 0 is zero, `S = R`, both memories canonical and within their sizes,
coprocessor-0 entries other than 12 zero) is kept by every step, from every state that meets it. -/
def Obligations.InvKeptByStep : Prop := ∀ s t : State, s.Inv → step s = .next t → t.Inv

/-- The reset state meets the invariant, and so does construction whatever the general registers, the RAM contents and the
firmware file are (decisions D3, D4; logs 4, 5). -/
def Obligations.InvHoldsAtConstruction : Prop :=
  State.reset.Inv ∧ ∀ (gpr : RegFile) (ram : Memory) (file : List Byte), ram.wf = true → ram.within Config.ramSize = true →
    (State.construct gpr ram file).Inv

/-- 10_state, register 0: it reads as zero in every state, every other register reads as it stands, a staged write and the
commit of a pending load leave entry 0 alone, and so do the instructions and the steps. That the read itself gives zero is
log 20. -/
def Obligations.RegisterZeroIsHardwired : Prop :=
  (∀ s : State, s.x 0#5 = 0#32)
    ∧ (∀ (s : State) (r : Reg), r ≠ 0#5 → s.x r = s.regs[r.toNat]'r.isLt)
    ∧ (∀ (s t : State) (i : Instr), exec i s = .next t → t.shadow[0] = s.shadow[0])
    ∧ ∀ s t : State, step s = .next t → t.shadow[0] = s.shadow[0] ∧ t.regs[0] = s.shadow[0]

/-- 10_state R24: only LW sets the pending load, and the next cycle commits it, index 0 never, and empties it. -/
def Obligations.OnlyLwSetsPendingLoad : Prop :=
  (∀ s t : State, step s = .next t →
    t.pl = ⟨0#5, 0#32⟩ ∨ ∃ rt base offset, decodeWord s.ni = .ok (.lw rt base offset) ∧ t.pl.idx = rt)
    ∧ ∀ s : State, s.beginCycle.pl = ⟨0#5, 0#32⟩
      ∧ ∀ r : Reg, s.beginCycle.shadow[r.toNat]'r.isLt
          = if r = s.pl.idx ∧ r ≠ 0#5 then s.pl.val else s.shadow[r.toNat]'r.isLt

/-- 10_state and 20_memory: RAM changes only in a cycle that executes an SW, with the gate open, aligned, to Main; the firmware
image never changes. -/
def Obligations.OnlySwChangesMemory : Prop := ∀ s t : State, step s = .next t →
  t.bios = s.bios
    ∧ (t.ram ≠ s.ram → ∃ rt base offset, decodeWord s.ni = .ok (.sw rt base offset) ∧ s.isolated = false
      ∧ (s.ea base offset).toNat % 4 = 0 ∧ classify (translateVa (s.ea base offset)) = .main)

/-- 10_state and 44_coprocessor0: a coprocessor-0 register changes only if it is register 12 and the cycle executes an MTC0 to
it, and then it holds that MTC0's source. -/
def Obligations.OnlyMtc0ChangesCop0 : Prop := ∀ s t : State, step s = .next t → ∀ i : Fin 16, t.cop0[i] ≠ s.cop0[i] →
  i = 12 ∧ ∃ rt, decodeWord s.ni = .ok (.mtc0 rt 12#5) ∧ t.cop0[12] = s.x rt

/-- 10_state: the program counter advances by 4 in every cycle unless the instruction transfers control, and then it is the
transfer's target; an unimplemented word advances it too. -/
def Obligations.ProgramCounterAdvancesOrTransfers : Prop := ∀ s t : State, step s = .next t →
  (∀ i, decodeWord s.ni = .ok i → t.pc = (transferTarget i s.beginCycle).getD (s.pc + 4#32))
    ∧ ((∀ i, decodeWord s.ni ≠ .ok i) → t.pc = s.pc + 4#32)

/-- 42_control_transfer, the branch-delay contract: every cycle latches the word at the old program counter, and the next cycle
executes it, once; after a transfer to T the next cycle is also the one that latches the word at T. That a delay-slot word that decodes to nothing
still leaves the program counter at T + 4 rests on 30_encoding (unimplemented instruction) and decision D8 (log 8). -/
def Obligations.BranchDelayContract : Prop :=
  (∀ s t u : State, step s = .next t → step t = .next u →
    (∀ w, readWord s s.pc = .ok w → t.ni = w)
      ∧ ∀ j, decodeWord t.ni = .ok j → ∃ b, exec j t.beginCycle = .next b ∧ u = b.publish)
    ∧ ∀ (s t u : State) (i : Instr) (T : Word), s.Running → decodeWord s.ni = .ok i →
      transferTarget i s.beginCycle = some T → step s = .next t → step t = .next u →
        t.pc = T ∧ (∀ w, readWord t T = .ok w → u.ni = w) ∧ u.pc = (match decodeWord t.ni with
          | .ok j => (transferTarget j t.beginCycle).getD (T + 4#32)
          | .error _ => T + 4#32)

/-- 42_control_transfer, a transfer in the delay slot of a transfer to T1: a JAL there links T1 + 4, a taken BNE there goes to
T1 + 4 * offset, and the one word at T1 is what executes after it. -/
def Obligations.TransferInDelaySlot : Prop :=
  ∀ (s t u : State) (i : Instr) (T1 : Word), s.Running → decodeWord s.ni = .ok i →
    transferTarget i s.beginCycle = some T1 → step s = .next t → step t = .next u →
      u.ni = readValue (readWord t T1)
        ∧ (∀ target, decodeWord t.ni = .ok (.jal target) → u.regs[31] = T1 + 4#32)
        ∧ (∀ rs rt offset, decodeWord t.ni = .ok (.bne rs rt offset) → t.x rs ≠ t.x rt →
            (u.pc.toNat : Int) = (T1.toNat + 4 * offset.toInt) % 2 ^ 32)

/-- 70_reset_and_hazards, the load delay: the instruction after an LW to X reads the pre-load X, whatever it is; unless it
writes X itself, the one after that reads the loaded value. -/
def Obligations.LoadDelayIsOneInstruction : Prop :=
  ∀ (s t u : State) (rt base : Reg) (offset : Half) (v : Word), decodeWord s.ni = .ok (.lw rt base offset) → rt ≠ 0#5 →
    s.isolated = false → readWord s (s.ea base offset) = .ok v → step s = .next t → step t = .next u →
      (t.beginCycle.x rt = if s.pl.idx = rt then s.pl.val else s.shadow[rt.toNat]'rt.isLt)
        ∧ ((∀ i, decodeWord t.ni = .ok i → destination i ≠ some rt) → u.x rt = v)

/-- 70_reset_and_hazards, a write in the load-delay slot wins (90_conflicts C1): if the instruction writes the pending load's
register itself, the loaded value makes no difference to what the cycle gives. -/
def Obligations.DelaySlotWriteWins : Prop :=
  ∀ (s t : State) (i : Instr) (v : Word), decodeWord s.ni = .ok i → destination i = some s.pl.idx →
    step s = .next t → t.Running → step { s with pl := ⟨s.pl.idx, v⟩ } = .next t

/-- 70_reset_and_hazards, zero latency of results that are no loads: the delay-slot instruction of a JAL reads the new link. -/
def Obligations.LinkIsVisibleInDelaySlot : Prop :=
  ∀ (s t u : State) (target : BitVec 26) (rd : Reg), decodeWord s.ni = .ok (.jal target) → step s = .next t →
    decodeWord t.ni = .ok (.addu rd 31#5 0#5) → rd ≠ 0#5 → step t = .next u →
      t.x 31#5 = s.pc + 4#32 ∧ u.x rd = s.pc + 4#32

/-- 20_memory and 70_reset_and_hazards, self-modifying code: a word stored by an SW does not change the instruction already
fetched in the same cycle, and is what the next cycle fetches from that address. -/
def Obligations.StoreIsSeenByTheNextFetch : Prop :=
  ∀ (s t u : State) (rt base : Reg) (offset : Half), s.ram.wf = true → decodeWord s.ni = .ok (.sw rt base offset) →
    s.isolated = false → (s.ea base offset).toNat % 4 = 0 → classify (translateVa (s.ea base offset)) = .main →
    step s = .next t → step t = .next u →
      t.ni = readValue (readWord s s.pc)
        ∧ (t.pc.toNat % 4 = 0 → classify (translateVa t.pc) = .main →
          (translateVa t.pc).toNat % 0x200000 = (translateVa (s.ea base offset)).toNat % 0x200000 → u.ni = s.x rt)

/-- 44_coprocessor0 and 70_reset_and_hazards: a status register written with bit 16 set stops the very next store, and one
written with bit 16 clear lets it through (decision D20, log 21, is not observable here). -/
def Obligations.StatusGovernsNextAccess : Prop :=
  ∀ (s t u : State) (rt rt' base : Reg) (offset : Half), decodeWord s.ni = .ok (.mtc0 rt 12#5) → step s = .next t →
    decodeWord t.ni = .ok (.sw rt' base offset) → step t = .next u →
      ((s.x rt).toNat / 2 ^ 16 % 2 = 1 → u.ram = t.ram ∧ .storeIsolated .word ∈ u.diags)
        ∧ ((s.x rt).toNat / 2 ^ 16 % 2 = 0 → t.ram.wf = true → (t.ea base offset).toNat % 4 = 0 →
          classify (translateVa (t.ea base offset)) = .main → readWord u (t.ea base offset) = .ok (t.x rt'))

/-- 10_state and 60_exceptions: of all coprocessor-0 bits only bit 16 of register 12 has an effect. Two states that differ in
any of the others (interrupt masks, mode bits and the rest) step alike in everything but that bank, and still agree on bit 16. -/
def Obligations.OtherStatusBitsAreInert : Prop :=
  ∀ (s t : State) (bank : Vector Word 16), (bank.get 12).getLsbD 16 = (s.cop0.get 12).getLsbD 16 → step s = .next t →
    ∃ bank' : Vector Word 16, (bank'.get 12).getLsbD 16 = (t.cop0.get 12).getLsbD 16
      ∧ step { s with cop0 := bank } = .next { t with cop0 := bank' }

/-! ### Construction -/

/-- 10_state and 70_reset_and_hazards, the state after construction, whatever the open parameters are (decisions D1 to D5;
logs 2 to 7): the program counter at the firmware entry, the latch a no-op, the pending load empty, the coprocessor-0 bank
zero, the engine running, register 0 zero and the others as given in both files, RAM as given, and the firmware the file's
bytes if there are exactly 524288 of them, else all zero and a report. The reset state has the values of those that are no
parameters. -/
def Obligations.StateAfterConstruction : Prop :=
  (State.reset.pc = 0xBFC00000#32 ∧ State.reset.ni = 0#32 ∧ State.reset.pl = ⟨0#5, 0#32⟩ ∧ State.reset.halted = false
    ∧ (∀ i : Fin 16, State.reset.cop0[i] = 0#32) ∧ State.reset.regs[0] = 0#32 ∧ State.reset.shadow = State.reset.regs) ∧
  ∀ (gpr : RegFile) (ram : Memory) (file : List Byte) (s : State), s = State.construct gpr ram file →
    s.pc = 0xBFC00000#32 ∧ s.ni = 0#32 ∧ s.pl = ⟨0#5, 0#32⟩ ∧ s.halted = false ∧ s.ram = ram
      ∧ (∀ i : Fin 16, s.cop0[i] = 0#32)
      ∧ (∀ r : Fin 32, s.regs[r] = (if r = 0 then 0#32 else gpr[r]) ∧ s.shadow[r] = s.regs[r])
      ∧ (file.length = 524288 → s.diags = [] ∧ ∀ k, s.bios.read k = file.getD k 0#8)
      ∧ (file.length ≠ 524288 → s.diags = [.firmwareSizeRejected file.length] ∧ ∀ k, s.bios.read k = 0#8)

/-- 70_reset_and_hazards, the first cycle (decisions D1, D2; logs 2, 3): it executes the no-op, latches the firmware's first
word, little-endian, and changes no register. -/
def Obligations.FirstCycleFetchesFirmware : Prop :=
  ∀ (gpr : RegFile) (ram : Memory) (file : List Byte), file.length = 524288 →
    ∃ t, step (State.construct gpr ram file) = .next t ∧ t.pc = 0xBFC00004#32 ∧ t.halted = false
      ∧ t.ni.toNat = (file.getD 0 0#8).toNat + 2 ^ 8 * (file.getD 1 0#8).toNat
          + 2 ^ 16 * (file.getD 2 0#8).toNat + 2 ^ 24 * (file.getD 3 0#8).toNat
      ∧ (∀ r : Reg, t.x r = (State.construct gpr ram file).x r) ∧ t.ram = ram

/-! ### Assembler -/

/-- 30_encoding, the J and BNE rows of the assembler table (general knowledge, log 22; the reach checks are log 24): a
well-formed jump or branch line at address A, executed with the program counter at A + 8, goes to the address written. -/
def Obligations.AssembledTransfersReachTarget : Prop :=
  ∀ (a target : Word) (s : State), s.pc = a + 8#32 →
    (jumpReaches a target = true → ∃ t, exec (.j (jumpField target)) s = .next t ∧ t.pc = target)
      ∧ (branchReaches a target = true → ∀ rs rt : Reg, s.x rs ≠ s.x rt →
          ∃ t, exec (.bne rs rt (branchField a target)) s = .next t ∧ t.pc = target)

/-- 30_encoding, the LI and LA expansions (general knowledge, log 22): each loads its whole 32-bit constant and changes no
other register. -/
def Obligations.ConstantsAreLoaded : Prop :=
  ∀ (a v : Word) (rt : Reg) (s : State), rt ≠ 0#5 → s.shadow = s.regs →
    ∀ line ∈ [Asm.li rt v, Asm.la rt v], ∃ t, execList (line.assemble a) s = .next t ∧ t.x rt = v
      ∧ ∀ r : Reg, r ≠ rt → t.x r = s.x r
end

