-- ==== Sys2Proof/Laws/Address.lean ====
section
/-! SUPPORT. Addresses as numbers: segments, region offsets and their bounds (20_memory R61, R66, R67). -/

namespace Sys2Proof.Machine

theorem segment_toNat (va : Word) : (segment va).toNat = va.toNat / 2 ^ 29 := by
  have h := va.isLt
  simp [segment, BitVec.extractLsb'_toNat, Nat.shiftRight_eq_div_pow]
  omega

/-- Masking with `2 ^ n - 4` keeps the value modulo `2 ^ n`, rounded down to a word. -/
theorem and_wordMask (x n : Nat) (hn : 2 ≤ n) : x &&& (2 ^ n - 4) = x % 2 ^ n / 4 * 4 := by
  obtain ⟨k, rfl⟩ : ∃ k, n = k + 2 := ⟨n - 2, by omega⟩
  have e : 2 ^ (k + 2) - 4 = (2 ^ k - 1) * 2 ^ 2 := by
    rw [Nat.sub_mul, ← Nat.pow_add]; rfl
  apply Nat.eq_of_testBit_eq
  intro i
  have e4 : (4 : Nat) = 2 ^ 2 := rfl
  rw [Nat.testBit_and, e, Nat.testBit_mul_two_pow, Nat.testBit_two_pow_sub_one]
  conv_rhs => rw [e4, Nat.testBit_mul_two_pow, Nat.testBit_div_two_pow, Nat.testBit_mod_two_pow]
  by_cases h : 2 ≤ i
  · simp only [h, decide_true, Bool.true_and]
    rw [show i - 2 + 2 = i by omega, Bool.and_comm]
    congr 1
    simp; omega
  · simp [h]

theorem ramOffset_eq (pa : Word) : ramOffset pa = pa.toNat % 0x200000 / 4 * 4 := by
  have h := and_wordMask pa.toNat 21 (by omega)
  simpa [ramOffset, BitVec.toNat_and] using h

theorem biosOffset_eq (pa : Word) : biosOffset pa = pa.toNat % 0x80000 / 4 * 4 := by
  have h := and_wordMask pa.toNat 19 (by omega)
  simpa [biosOffset, BitVec.toNat_and] using h

/-- A RAM offset and the three bytes after it lie in RAM. -/
theorem ramOffset_lt (pa : Word) : ramOffset pa + 3 < Config.ramSize := by
  rw [ramOffset_eq, Config.ramSize]; omega

theorem biosOffset_lt (pa : Word) : biosOffset pa + 3 < Config.biosSize := by
  rw [biosOffset_eq, Config.biosSize]; omega

/-- Translation as arithmetic (R61): KSEG0 and KSEG1 lose their base, every other segment is the identity. -/
theorem translateVa_toNat (va : Word) :
    (translateVa va).toNat = if va.toNat / 2 ^ 29 = 4 then va.toNat - 2 ^ 31
      else if va.toNat / 2 ^ 29 = 5 then va.toNat - 5 * 2 ^ 29 else va.toNat := by
  have hlt := va.isLt
  have hs := segment_toNat va
  have key : ∀ n : BitVec 3, segment va = n ↔ va.toNat / 2 ^ 29 = n.toNat := by
    intro n; rw [← hs]; exact BitVec.toNat_inj.symm
  unfold translateVa regionMask
  by_cases h4 : va.toNat / 2 ^ 29 = 4
  · rw [if_pos ((key 0b100#3).2 h4), if_pos h4, BitVec.toNat_and]
    have : (0x7FFFFFFF#32).toNat = 2 ^ 31 - 1 := rfl
    rw [this, Nat.and_two_pow_sub_one_eq_mod]
    omega
  · have n4 : ¬ segment va = 0b100#3 := fun h => h4 ((key _).1 h)
    rw [if_neg n4, if_neg h4]
    by_cases h5 : va.toNat / 2 ^ 29 = 5
    · rw [if_pos ((key 0b101#3).2 h5), if_pos h5, BitVec.toNat_and]
      have : (0x1FFFFFFF#32).toNat = 2 ^ 29 - 1 := rfl
      rw [this, Nat.and_two_pow_sub_one_eq_mod]
      omega
    · have n5 : ¬ segment va = 0b101#3 := fun h => h5 ((key _).1 h)
      rw [if_neg n5, if_neg h5, BitVec.toNat_and]
      have : (0xFFFFFFFF#32).toNat = 2 ^ 32 - 1 := rfl
      rw [this, Nat.and_two_pow_sub_one_eq_mod]
      omega

/-- The alignment test as arithmetic (R77). -/
theorem aligned_iff (va : Word) : va.extractLsb' 0 2 = 0#2 ↔ va.toNat % 4 = 0 := by
  rw [← BitVec.toNat_inj]
  simp [BitVec.extractLsb'_toNat]

theorem halfAligned_iff (va : Word) : va.extractLsb' 0 1 = 0#1 ↔ va.toNat % 2 = 0 := by
  rw [← BitVec.toNat_inj]
  simp [BitVec.extractLsb'_toNat]

end Sys2Proof.Machine
end

