-- ==== Sys2Proof/Laws/State.lean ====
section
/-! SUPPORT. One lemma per field per update of State, true by rfl, so that no later proof unfolds a record update. -/

namespace Sys2Proof.Machine

@[simp] theorem State.stage_regs (s : State) (i : Reg) (v : Word) : (s.stage i v).regs = s.regs := rfl
@[simp] theorem State.stage_shadow (s : State) (i : Reg) (v : Word) : (s.stage i v).shadow = RegFile.write s.shadow i v := rfl
@[simp] theorem State.stage_pl (s : State) (i : Reg) (v : Word) : (s.stage i v).pl = s.pl := rfl
@[simp] theorem State.stage_pc (s : State) (i : Reg) (v : Word) : (s.stage i v).pc = s.pc := rfl
@[simp] theorem State.stage_ni (s : State) (i : Reg) (v : Word) : (s.stage i v).ni = s.ni := rfl
@[simp] theorem State.stage_cop0 (s : State) (i : Reg) (v : Word) : (s.stage i v).cop0 = s.cop0 := rfl
@[simp] theorem State.stage_ram (s : State) (i : Reg) (v : Word) : (s.stage i v).ram = s.ram := rfl
@[simp] theorem State.stage_bios (s : State) (i : Reg) (v : Word) : (s.stage i v).bios = s.bios := rfl
@[simp] theorem State.stage_halted (s : State) (i : Reg) (v : Word) : (s.stage i v).halted = s.halted := rfl
@[simp] theorem State.stage_diags (s : State) (i : Reg) (v : Word) : (s.stage i v).diags = s.diags := rfl

@[simp] theorem State.jump_regs (s : State) (target : Word) : (s.jump target).regs = s.regs := rfl
@[simp] theorem State.jump_shadow (s : State) (target : Word) : (s.jump target).shadow = s.shadow := rfl
@[simp] theorem State.jump_pl (s : State) (target : Word) : (s.jump target).pl = s.pl := rfl
@[simp] theorem State.jump_pc (s : State) (target : Word) : (s.jump target).pc = target := rfl
@[simp] theorem State.jump_ni (s : State) (target : Word) : (s.jump target).ni = s.ni := rfl
@[simp] theorem State.jump_cop0 (s : State) (target : Word) : (s.jump target).cop0 = s.cop0 := rfl
@[simp] theorem State.jump_ram (s : State) (target : Word) : (s.jump target).ram = s.ram := rfl
@[simp] theorem State.jump_bios (s : State) (target : Word) : (s.jump target).bios = s.bios := rfl
@[simp] theorem State.jump_halted (s : State) (target : Word) : (s.jump target).halted = s.halted := rfl
@[simp] theorem State.jump_diags (s : State) (target : Word) : (s.jump target).diags = s.diags := rfl

@[simp] theorem State.setPending_regs (s : State) (i : Reg) (v : Word) : (s.setPending i v).regs = s.regs := rfl
@[simp] theorem State.setPending_shadow (s : State) (i : Reg) (v : Word) : (s.setPending i v).shadow = s.shadow := rfl
@[simp] theorem State.setPending_pl (s : State) (i : Reg) (v : Word) : (s.setPending i v).pl = ⟨i, v⟩ := rfl
@[simp] theorem State.setPending_pc (s : State) (i : Reg) (v : Word) : (s.setPending i v).pc = s.pc := rfl
@[simp] theorem State.setPending_ni (s : State) (i : Reg) (v : Word) : (s.setPending i v).ni = s.ni := rfl
@[simp] theorem State.setPending_cop0 (s : State) (i : Reg) (v : Word) : (s.setPending i v).cop0 = s.cop0 := rfl
@[simp] theorem State.setPending_ram (s : State) (i : Reg) (v : Word) : (s.setPending i v).ram = s.ram := rfl
@[simp] theorem State.setPending_bios (s : State) (i : Reg) (v : Word) : (s.setPending i v).bios = s.bios := rfl
@[simp] theorem State.setPending_halted (s : State) (i : Reg) (v : Word) : (s.setPending i v).halted = s.halted := rfl
@[simp] theorem State.setPending_diags (s : State) (i : Reg) (v : Word) : (s.setPending i v).diags = s.diags := rfl

@[simp] theorem State.emit_regs (s : State) (d : Diag) : (s.emit d).regs = s.regs := rfl
@[simp] theorem State.emit_shadow (s : State) (d : Diag) : (s.emit d).shadow = s.shadow := rfl
@[simp] theorem State.emit_pl (s : State) (d : Diag) : (s.emit d).pl = s.pl := rfl
@[simp] theorem State.emit_pc (s : State) (d : Diag) : (s.emit d).pc = s.pc := rfl
@[simp] theorem State.emit_ni (s : State) (d : Diag) : (s.emit d).ni = s.ni := rfl
@[simp] theorem State.emit_cop0 (s : State) (d : Diag) : (s.emit d).cop0 = s.cop0 := rfl
@[simp] theorem State.emit_ram (s : State) (d : Diag) : (s.emit d).ram = s.ram := rfl
@[simp] theorem State.emit_bios (s : State) (d : Diag) : (s.emit d).bios = s.bios := rfl
@[simp] theorem State.emit_halted (s : State) (d : Diag) : (s.emit d).halted = s.halted := rfl
@[simp] theorem State.emit_diags (s : State) (d : Diag) : (s.emit d).diags = s.diags ++ [d] := rfl

@[simp] theorem State.raise_regs (s : State) (r : HaltReason) : (s.raise r).regs = s.regs := rfl
@[simp] theorem State.raise_shadow (s : State) (r : HaltReason) : (s.raise r).shadow = s.shadow := rfl
@[simp] theorem State.raise_pl (s : State) (r : HaltReason) : (s.raise r).pl = s.pl := rfl
@[simp] theorem State.raise_pc (s : State) (r : HaltReason) : (s.raise r).pc = s.pc := rfl
@[simp] theorem State.raise_ni (s : State) (r : HaltReason) : (s.raise r).ni = s.ni := rfl
@[simp] theorem State.raise_cop0 (s : State) (r : HaltReason) : (s.raise r).cop0 = s.cop0 := rfl
@[simp] theorem State.raise_ram (s : State) (r : HaltReason) : (s.raise r).ram = s.ram := rfl
@[simp] theorem State.raise_bios (s : State) (r : HaltReason) : (s.raise r).bios = s.bios := rfl
@[simp] theorem State.raise_halted (s : State) (r : HaltReason) : (s.raise r).halted = true := rfl
@[simp] theorem State.raise_diags (s : State) (r : HaltReason) : (s.raise r).diags = s.diags ++ [.halt r] := rfl

@[simp] theorem State.setSr_regs (s : State) (v : Word) : (s.setSr v).regs = s.regs := rfl
@[simp] theorem State.setSr_shadow (s : State) (v : Word) : (s.setSr v).shadow = s.shadow := rfl
@[simp] theorem State.setSr_pl (s : State) (v : Word) : (s.setSr v).pl = s.pl := rfl
@[simp] theorem State.setSr_pc (s : State) (v : Word) : (s.setSr v).pc = s.pc := rfl
@[simp] theorem State.setSr_ni (s : State) (v : Word) : (s.setSr v).ni = s.ni := rfl
@[simp] theorem State.setSr_cop0 (s : State) (v : Word) : (s.setSr v).cop0 = s.cop0.set 12 v := rfl
@[simp] theorem State.setSr_ram (s : State) (v : Word) : (s.setSr v).ram = s.ram := rfl
@[simp] theorem State.setSr_bios (s : State) (v : Word) : (s.setSr v).bios = s.bios := rfl
@[simp] theorem State.setSr_halted (s : State) (v : Word) : (s.setSr v).halted = s.halted := rfl
@[simp] theorem State.setSr_diags (s : State) (v : Word) : (s.setSr v).diags = s.diags := rfl

@[simp] theorem State.advance_regs (s : State) : s.advance.regs = s.regs := rfl
@[simp] theorem State.advance_shadow (s : State) : s.advance.shadow = s.shadow := rfl
@[simp] theorem State.advance_pl (s : State) : s.advance.pl = s.pl := rfl
@[simp] theorem State.advance_pc (s : State) : s.advance.pc = s.pc + 4#32 := rfl
@[simp] theorem State.advance_ni (s : State) : s.advance.ni = s.ni := rfl
@[simp] theorem State.advance_cop0 (s : State) : s.advance.cop0 = s.cop0 := rfl
@[simp] theorem State.advance_ram (s : State) : s.advance.ram = s.ram := rfl
@[simp] theorem State.advance_bios (s : State) : s.advance.bios = s.bios := rfl
@[simp] theorem State.advance_halted (s : State) : s.advance.halted = s.halted := rfl
@[simp] theorem State.advance_diags (s : State) : s.advance.diags = s.diags := rfl

@[simp] theorem State.commit_regs (s : State) : s.commit.regs = s.regs := rfl
@[simp] theorem State.commit_shadow (s : State) : s.commit.shadow = RegFile.write s.shadow s.pl.idx s.pl.val := rfl
@[simp] theorem State.commit_pl (s : State) : s.commit.pl = ⟨0#5, 0#32⟩ := rfl
@[simp] theorem State.commit_pc (s : State) : s.commit.pc = s.pc := rfl
@[simp] theorem State.commit_ni (s : State) : s.commit.ni = s.ni := rfl
@[simp] theorem State.commit_cop0 (s : State) : s.commit.cop0 = s.cop0 := rfl
@[simp] theorem State.commit_ram (s : State) : s.commit.ram = s.ram := rfl
@[simp] theorem State.commit_bios (s : State) : s.commit.bios = s.bios := rfl
@[simp] theorem State.commit_halted (s : State) : s.commit.halted = s.halted := rfl
@[simp] theorem State.commit_diags (s : State) : s.commit.diags = s.diags := rfl

@[simp] theorem State.publish_regs (s : State) : s.publish.regs = s.shadow := rfl
@[simp] theorem State.publish_shadow (s : State) : s.publish.shadow = s.shadow := rfl
@[simp] theorem State.publish_pl (s : State) : s.publish.pl = s.pl := rfl
@[simp] theorem State.publish_pc (s : State) : s.publish.pc = s.pc := rfl
@[simp] theorem State.publish_ni (s : State) : s.publish.ni = s.ni := rfl
@[simp] theorem State.publish_cop0 (s : State) : s.publish.cop0 = s.cop0 := rfl
@[simp] theorem State.publish_ram (s : State) : s.publish.ram = s.ram := rfl
@[simp] theorem State.publish_bios (s : State) : s.publish.bios = s.bios := rfl
@[simp] theorem State.publish_halted (s : State) : s.publish.halted = s.halted := rfl
@[simp] theorem State.publish_diags (s : State) : s.publish.diags = s.diags := rfl

@[simp] theorem State.latchWord_regs (s : State) (nbits w : Nat) : (s.latchWord nbits w).regs = s.regs := rfl
@[simp] theorem State.latchWord_shadow (s : State) (nbits w : Nat) : (s.latchWord nbits w).shadow = s.shadow := rfl
@[simp] theorem State.latchWord_pl (s : State) (nbits w : Nat) : (s.latchWord nbits w).pl = s.pl := rfl
@[simp] theorem State.latchWord_pc (s : State) (nbits w : Nat) : (s.latchWord nbits w).pc = s.pc := rfl
@[simp] theorem State.latchWord_ni (s : State) (nbits w : Nat) : (s.latchWord nbits w).ni = BitVec.ofNat 32 (w % 2 ^ nbits) := rfl
@[simp] theorem State.latchWord_cop0 (s : State) (nbits w : Nat) : (s.latchWord nbits w).cop0 = s.cop0 := rfl
@[simp] theorem State.latchWord_ram (s : State) (nbits w : Nat) : (s.latchWord nbits w).ram = s.ram := rfl
@[simp] theorem State.latchWord_bios (s : State) (nbits w : Nat) : (s.latchWord nbits w).bios = s.bios := rfl
@[simp] theorem State.latchWord_halted (s : State) (nbits w : Nat) : (s.latchWord nbits w).halted = s.halted := rfl
@[simp] theorem State.latchWord_diags (s : State) (nbits w : Nat) : (s.latchWord nbits w).diags = s.diags := rfl

@[simp] theorem State.storeDevice_regs (s : State) (w : Width) (va value : Word) : (s.storeDevice w va value).regs = s.regs := rfl
@[simp] theorem State.storeDevice_shadow (s : State) (w : Width) (va value : Word) : (s.storeDevice w va value).shadow = s.shadow := rfl
@[simp] theorem State.storeDevice_pl (s : State) (w : Width) (va value : Word) : (s.storeDevice w va value).pl = s.pl := rfl
@[simp] theorem State.storeDevice_pc (s : State) (w : Width) (va value : Word) : (s.storeDevice w va value).pc = s.pc := rfl
@[simp] theorem State.storeDevice_ni (s : State) (w : Width) (va value : Word) : (s.storeDevice w va value).ni = s.ni := rfl
@[simp] theorem State.storeDevice_cop0 (s : State) (w : Width) (va value : Word) : (s.storeDevice w va value).cop0 = s.cop0 := rfl
@[simp] theorem State.storeDevice_ram (s : State) (w : Width) (va value : Word) : (s.storeDevice w va value).ram = s.ram := rfl
@[simp] theorem State.storeDevice_bios (s : State) (w : Width) (va value : Word) : (s.storeDevice w va value).bios = s.bios := rfl
@[simp] theorem State.storeDevice_halted (s : State) (w : Width) (va value : Word) : (s.storeDevice w va value).halted = s.halted := rfl
@[simp] theorem State.storeDevice_diags (s : State) (w : Width) (va value : Word) : (s.storeDevice w va value).diags = s.diags ++ (if Config.deviceWriteDiag w.bytes va value then [.deviceWriteIgnored va w value] else []) := rfl

@[simp] theorem State.x_publish (s : State) (i : Reg) : s.publish.x i = RegFile.read s.shadow i := rfl

end Sys2Proof.Machine
end

