-- ==== Sys2Proof/Laws/Memory.lean ====
section
/-! SUPPORT. Byte memories: a read after a write, and the canonical form, which every operation keeps. -/

namespace Sys2Proof.Machine

/-- Canonical from `q` on is canonical from any earlier offset on. -/
theorem Memory.wfFrom_mono {m : Memory} {p q : Nat} (hpq : p ≤ q) (h : m.wfFrom q = true) : m.wfFrom p = true := by
  cases m with
  | nil => rfl
  | cons c r =>
    simp only [Memory.wfFrom, Bool.and_eq_true, decide_eq_true_eq] at h ⊢
    exact ⟨⟨by omega, h.1.2⟩, h.2⟩

/-- An offset before the first cell is unlisted. -/
theorem Memory.read_below {m : Memory} {lo n : Nat} (h : m.wfFrom lo = true) (hn : n < lo) :
    m.read n = Memory.unlisted := by
  induction m generalizing lo with
  | nil => rfl
  | cons c r ih =>
    obtain ⟨k, x⟩ := c
    simp only [Memory.wfFrom, Bool.and_eq_true, decide_eq_true_eq] at h
    rw [Memory.read, if_neg (by omega), ih h.2 (by omega)]

/-- Reading a byte after a write: the byte written at its offset, the old byte elsewhere. -/
theorem Memory.read_write (lo : Nat) (m : Memory) (hm : m.wfFrom lo = true) (a b : Nat) (v : Byte) :
    (m.write a v).read b = if b = a then v else m.read b := by
  induction m generalizing lo with
  | nil => by_cases hv : v = Memory.unlisted <;> by_cases hb : b = a <;> simp [Memory.write, Memory.read, hv, hb]
  | cons c rest ih =>
    obtain ⟨k, x⟩ := c
    simp only [Memory.wfFrom, Bool.and_eq_true, decide_eq_true_eq] at hm
    have hrest := ih (k + 1) hm.2
    simp only [Memory.write]
    split
    · next hlt =>
      split
      · next hv =>
        by_cases hb : b = a
        · subst hb
          simp [Memory.read, Nat.ne_of_lt hlt, hv, Memory.read_below hm.2 (by omega : b < k + 1)]
        · simp [hb]
      · simp [Memory.read]
    · split
      · next hge he =>
        subst he
        split
        · next hv =>
          by_cases hb : b = a
          · subst hb; simp [hv, Memory.read_below hm.2 (by omega : b < b + 1)]
          · simp [Memory.read, hb]
        · by_cases hb : b = a <;> simp [Memory.read, hb]
      · next hge he =>
        by_cases hb : b = k
        · subst hb
          simp [Memory.read, Ne.symm he]
        · simp [Memory.read, hb, hrest]

/-- A write keeps the canonical form. -/
theorem Memory.write_wfFrom (lo : Nat) (m : Memory) (hm : m.wfFrom lo = true) (a : Nat) (ha : lo ≤ a) (v : Byte) :
    (m.write a v).wfFrom lo = true := by
  induction m generalizing lo with
  | nil => by_cases hv : v = Memory.unlisted <;> simp [Memory.write, Memory.wfFrom, hv, ha]
  | cons c rest ih =>
    obtain ⟨k, x⟩ := c
    have hm' := hm
    simp only [Memory.wfFrom, Bool.and_eq_true, decide_eq_true_eq] at hm
    simp only [Memory.write]
    split
    · next hlt =>
      split
      · exact hm'
      · next hv =>
        simp only [Memory.wfFrom, Bool.and_eq_true, decide_eq_true_eq, bne_iff_ne, ne_eq]
        exact ⟨⟨ha, hv⟩, ⟨by omega, by simpa using hm.1.2⟩, hm.2⟩
    · split
      · next he =>
        subst he
        split
        · exact Memory.wfFrom_mono (by omega) hm.2
        · next hv =>
          simp only [Memory.wfFrom, Bool.and_eq_true, decide_eq_true_eq, bne_iff_ne, ne_eq]
          exact ⟨⟨ha, hv⟩, hm.2⟩
      · next hge he =>
        simp only [Memory.wfFrom, Bool.and_eq_true, decide_eq_true_eq]
        exact ⟨hm.1, ih (k + 1) hm.2 (by omega)⟩

theorem Memory.write_wf {m : Memory} (hm : m.wf = true) (a : Nat) (v : Byte) : (m.write a v).wf = true :=
  Memory.write_wfFrom 0 m hm a (Nat.zero_le a) v

/-- A write below `size` keeps every listed offset below `size`. -/
theorem Memory.write_within {size : Nat} {m : Memory} (hm : m.within size = true) {a : Nat} (ha : a < size) (v : Byte) :
    (m.write a v).within size = true := by
  unfold Memory.within at *
  induction m with
  | nil => by_cases hv : v = Memory.unlisted <;> simp [Memory.write, hv, ha]
  | cons c rest ih =>
    obtain ⟨k, x⟩ := c
    simp only [List.all_cons, Bool.and_eq_true, decide_eq_true_eq] at hm
    have hr := ih hm.2
    simp only [Memory.write]
    split_ifs <;> simp [hm.1, hm.2, hr, ha]

/-- Reading a byte after a word store. -/
theorem Memory.read_write32 {m : Memory} (hm : m.wf = true) (o : Nat) (v : Word) (b : Nat) :
    (m.write32 o v).read b = if o ≤ b ∧ b < o + 4 then byteOfWord v (b - o) else m.read b := by
  have h0 := Memory.write_wf hm o (byteOfWord v 0)
  have h1 := Memory.write_wf h0 (o + 1) (byteOfWord v 1)
  have h2 := Memory.write_wf h1 (o + 2) (byteOfWord v 2)
  unfold Memory.write32
  rw [Memory.read_write 0 _ h2, Memory.read_write 0 _ h1, Memory.read_write 0 _ h0, Memory.read_write 0 _ hm]
  by_cases hin : o ≤ b ∧ b < o + 4
  · rw [if_pos hin]
    obtain h | h | h | h : b = o ∨ b = o + 1 ∨ b = o + 2 ∨ b = o + 3 := by omega
    all_goals subst h; simp
  · rw [if_neg hin, if_neg (by omega), if_neg (by omega), if_neg (by omega), if_neg (by omega)]

theorem Memory.write32_wf {m : Memory} (hm : m.wf = true) (o : Nat) (v : Word) : (m.write32 o v).wf = true :=
  Memory.write_wf (Memory.write_wf (Memory.write_wf (Memory.write_wf hm _ _) _ _) _ _) _ _

theorem Memory.write32_within {size : Nat} {m : Memory} (hm : m.within size = true) {o : Nat} (ho : o + 3 < size) (v : Word) :
    (m.write32 o v).within size = true :=
  Memory.write_within (Memory.write_within (Memory.write_within (Memory.write_within hm (by omega) _) (by omega) _) (by omega) _) ho _

/-- A word is put together again from its bytes. -/
theorem wordOfBytes_byteOfWord (v : Word) :
    wordOfBytes (byteOfWord v 0) (byteOfWord v 1) (byteOfWord v 2) (byteOfWord v 3) = v := by
  apply BitVec.eq_of_getLsbD_eq
  intro k hk
  simp only [wordOfBytes, byteOfWord, BitVec.getLsbD_append, BitVec.getLsbD_extractLsb']
  interval_cases k <;> simp

theorem Memory.ofBytesFrom_wf (a : Nat) (file : List Byte) : (Memory.ofBytesFrom a file).wfFrom a = true := by
  induction file generalizing a with
  | nil => rfl
  | cons b rest ih =>
    simp only [Memory.ofBytesFrom]
    split
    · exact Memory.wfFrom_mono (by omega) (ih (a + 1))
    · next hb => simp [Memory.wfFrom, hb, ih (a + 1)]

theorem Memory.ofBytes_wf (file : List Byte) : (Memory.ofBytes file).wf = true := Memory.ofBytesFrom_wf 0 file

theorem Memory.ofBytesFrom_within (a : Nat) (file : List Byte) :
    (Memory.ofBytesFrom a file).within (a + file.length) = true := by
  unfold Memory.within
  induction file generalizing a with
  | nil => rfl
  | cons b rest ih =>
    have h := ih (a + 1)
    simp only [Memory.ofBytesFrom]
    rw [List.length_cons, Nat.add_comm rest.length, ← Nat.add_assoc]
    split
    · exact h
    · rw [List.all_cons, h]; simp; omega

/-- The image of a file holds its bytes, and zero past them. -/
theorem Memory.read_ofBytesFrom (a : Nat) (file : List Byte) (k : Nat) :
    (Memory.ofBytesFrom a file).read k = if a ≤ k then file.getD (k - a) Memory.unlisted else Memory.unlisted := by
  induction file generalizing a with
  | nil => simp [Memory.ofBytesFrom, Memory.read]
  | cons b rest ih =>
    have h := ih (a + 1)
    simp only [Memory.ofBytesFrom]
    split
    · next hb =>
      rw [h]
      by_cases hk : a ≤ k
      · by_cases he : k = a
        · subst he; simp [hb]
        · obtain ⟨n, rfl⟩ : ∃ n, k = a + 1 + n := ⟨k - (a + 1), by omega⟩
          have e : a + 1 + n - a = n + 1 := by omega
          simp [e]; omega
      · rw [if_neg (by omega), if_neg hk]
    · next hb =>
      simp only [Memory.read]
      by_cases he : k = a
      · subst he; simp
      · rw [if_neg he, h]
        by_cases hk : a ≤ k
        · obtain ⟨n, rfl⟩ : ∃ n, k = a + 1 + n := ⟨k - (a + 1), by omega⟩
          have e : a + 1 + n - a = n + 1 := by omega
          simp [e]; omega
        · rw [if_neg (by omega), if_neg hk]

end Sys2Proof.Machine
end

