-- ==== Sys2Proof/Laws/Registers.lean ====
section
/-! SUPPORT. The register files: reads, writes, and the hard-wired register 0 (10_state R21). -/

namespace Sys2Proof.Machine

@[simp] theorem RegFile.read_zero (f : RegFile) : RegFile.read f 0#5 = 0#32 := by simp [RegFile.read]

theorem RegFile.read_of_ne_zero (f : RegFile) {i : Reg} (h : i ≠ 0#5) : RegFile.read f i = f[i.toNat]'i.isLt := by
  simp [RegFile.read, h]

@[simp] theorem RegFile.write_zero (f : RegFile) (v : Word) : RegFile.write f 0#5 v = f := by simp [RegFile.write]

/-- What a write leaves in each entry. -/
theorem RegFile.write_get (f : RegFile) (d r : Reg) (v : Word) :
    (RegFile.write f d v)[r.toNat]'r.isLt = if r = d ∧ d ≠ 0#5 then v else f[r.toNat]'r.isLt := by
  unfold RegFile.write
  by_cases hd : d = 0#5
  · simp [hd]
  · by_cases hr : r = d
    · subst hr; simp [hd]
    · have hne : d.toNat ≠ r.toNat := fun h => hr (BitVec.eq_of_toNat_eq h.symm)
      simp [hd, hr, hne]

/-- What a write leaves for each read. -/
theorem RegFile.read_write (f : RegFile) (d r : Reg) (v : Word) :
    RegFile.read (RegFile.write f d v) r = if r = d ∧ d ≠ 0#5 then v else RegFile.read f r := by
  by_cases hr : r = 0#5
  · subst hr
    by_cases hd : d = 0#5
    · simp [hd]
    · simp [RegFile.read, Ne.symm hd]
  · simp only [RegFile.read_of_ne_zero _ hr, RegFile.write_get]

/-- A write never changes entry 0. -/
theorem RegFile.write_getElem_zero (f : RegFile) (d : Reg) (v : Word) : (RegFile.write f d v)[0] = f[0] := by
  have h := RegFile.write_get f d 0#5 v
  by_cases hd : d = 0#5
  · simp [hd]
  · simpa [Ne.symm hd] using h

/-- Two files with the same entries read alike. -/
theorem RegFile.ext_get {f g : RegFile} (h : ∀ r : Reg, f[r.toNat]'r.isLt = g[r.toNat]'r.isLt) : f = g := by
  apply Vector.ext
  intro i hi
  have := h (BitVec.ofNat 5 i)
  have e : (BitVec.ofNat 5 i).toNat = i := by simp; omega
  simpa only [e] using this

@[simp] theorem State.x_zero (s : State) : s.x 0#5 = 0#32 := RegFile.read_zero _

end Sys2Proof.Machine
end

