-- ==== Sys2Proof/Laws/Access.lean ====
section
/-! SUPPORT. Memory accesses: what a read can answer, what a load, a store and a fetch leave unchanged, and everything a store
can do. -/

namespace Sys2Proof.Machine

/-! ### Reads -/

/-- A read depends on the two memories only. -/
theorem readWord_congr {s t : State} (hr : t.ram = s.ram) (hb : t.bios = s.bios) (va : Word) : readWord t va = readWord s va := by
  simp only [readWord, hr, hb]

theorem readWord_misaligned (s : State) {va : Word} (h : va.extractLsb' 0 2 ≠ 0#2) :
    readWord s va = .error (.misalignedRead va) := by
  unfold readWord; exact if_pos h

theorem readWord_main (s : State) {va : Word} (ha : va.extractLsb' 0 2 = 0#2) (hc : classify (translateVa va) = .main) :
    readWord s va = .ok (s.ram.read32 (ramOffset (translateVa va))) := by
  unfold readWord; rw [if_neg (not_not.mpr ha), hc]

theorem readWord_bios (s : State) {va : Word} (ha : va.extractLsb' 0 2 = 0#2) (hc : classify (translateVa va) = .bios) :
    readWord s va = .ok (s.bios.read32 (biosOffset (translateVa va))) := by
  unfold readWord; rw [if_neg (not_not.mpr ha), hc]

theorem readWord_unhandled (s : State) {va : Word} (ha : va.extractLsb' 0 2 = 0#2) (hm : classify (translateVa va) ≠ .main)
    (hb : classify (translateVa va) ≠ .bios) :
    readWord s va = .error (.unhandledRead va (translateVa va) (classify (translateVa va))) := by
  unfold readWord
  rw [if_neg (not_not.mpr ha)]
  cases h : classify (translateVa va) <;> simp_all

@[simp] theorem readValue_ok (v : Word) : readValue (.ok v) = v := rfl
@[simp] theorem readValue_error (r : HaltReason) : readValue (.error r) = 0#32 := rfl
@[simp] theorem State.raiseIfError_ok (s : State) (v : Word) : s.raiseIfError (.ok v) = s := rfl
@[simp] theorem State.raiseIfError_error (s : State) (r : HaltReason) : s.raiseIfError (.error r) = s.raise r := rfl

@[simp] theorem State.raiseIfError_regs (s : State) (e : Except HaltReason Word) : (s.raiseIfError e).regs = s.regs := by cases e <;> rfl
@[simp] theorem State.raiseIfError_shadow (s : State) (e : Except HaltReason Word) : (s.raiseIfError e).shadow = s.shadow := by cases e <;> rfl
@[simp] theorem State.raiseIfError_pl (s : State) (e : Except HaltReason Word) : (s.raiseIfError e).pl = s.pl := by cases e <;> rfl
@[simp] theorem State.raiseIfError_pc (s : State) (e : Except HaltReason Word) : (s.raiseIfError e).pc = s.pc := by cases e <;> rfl
@[simp] theorem State.raiseIfError_ni (s : State) (e : Except HaltReason Word) : (s.raiseIfError e).ni = s.ni := by cases e <;> rfl
@[simp] theorem State.raiseIfError_cop0 (s : State) (e : Except HaltReason Word) : (s.raiseIfError e).cop0 = s.cop0 := by cases e <;> rfl
@[simp] theorem State.raiseIfError_ram (s : State) (e : Except HaltReason Word) : (s.raiseIfError e).ram = s.ram := by cases e <;> rfl
@[simp] theorem State.raiseIfError_bios (s : State) (e : Except HaltReason Word) : (s.raiseIfError e).bios = s.bios := by cases e <;> rfl

/-! ### Loads -/

@[simp] theorem State.load_regs (s : State) (rt : Reg) (va : Word) : (s.load rt va).regs = s.regs := by unfold State.load; split <;> simp
@[simp] theorem State.load_shadow (s : State) (rt : Reg) (va : Word) : (s.load rt va).shadow = s.shadow := by unfold State.load; split <;> simp
@[simp] theorem State.load_pc (s : State) (rt : Reg) (va : Word) : (s.load rt va).pc = s.pc := by unfold State.load; split <;> simp
@[simp] theorem State.load_ni (s : State) (rt : Reg) (va : Word) : (s.load rt va).ni = s.ni := by unfold State.load; split <;> simp
@[simp] theorem State.load_cop0 (s : State) (rt : Reg) (va : Word) : (s.load rt va).cop0 = s.cop0 := by unfold State.load; split <;> simp
@[simp] theorem State.load_ram (s : State) (rt : Reg) (va : Word) : (s.load rt va).ram = s.ram := by unfold State.load; split <;> simp
@[simp] theorem State.load_bios (s : State) (rt : Reg) (va : Word) : (s.load rt va).bios = s.bios := by unfold State.load; split <;> simp

theorem State.load_isolated {s : State} (h : s.isolated = true) (rt : Reg) (va : Word) : s.load rt va = s.emit .loadIsolated := by
  unfold State.load; rw [if_pos h]

theorem State.load_open {s : State} (h : s.isolated = false) (rt : Reg) (va : Word) :
    s.load rt va = (s.raiseIfError (readWord s va)).setPending rt (readValue (readWord s va)) := by
  unfold State.load; rw [if_neg (by simp [h])]

/-! ### Stores -/

/-- Everything a write routine can do (20_memory R68): it writes a RAM word, or it halts, or it only reports. -/
theorem State.write_cases (s : State) (w : Width) (va value : Word) :
    (w = .word ∧ classify (translateVa va) = .main ∧ va.extractLsb' 0 2 = 0#2
        ∧ s.write w va value = { s with ram := s.ram.write32 (ramOffset (translateVa va)) value })
      ∨ (∃ r, s.write w va value = s.raise r)
      ∨ ∃ ds, haltReasons ds = [] ∧ s.write w va value = { s with diags := s.diags ++ ds } := by
  unfold State.write
  split
  · exact .inr (.inl ⟨_, rfl⟩)
  · next ha =>
    have hdev : ∃ ds, haltReasons ds = [] ∧ s.storeDevice w va value = { s with diags := s.diags ++ ds } := by
      refine ⟨_, ?_, rfl⟩
      split <;> rfl
    split
    · next hc =>
      cases w
      · exact .inr (.inr ⟨[_], rfl, rfl⟩)
      · exact .inr (.inr ⟨[_], rfl, rfl⟩)
      · exact .inl ⟨rfl, hc, by simpa [misaligned] using ha, rfl⟩
    · exact .inr (.inr hdev)
    · exact .inr (.inr hdev)
    · exact .inr (.inr ⟨[_], rfl, rfl⟩)
    · exact .inr (.inl ⟨_, rfl⟩)
    · exact .inr (.inl ⟨_, rfl⟩)
    · exact .inr (.inl ⟨_, rfl⟩)

/-- Everything a store instruction's access can do: as a write routine, and nothing but a report under cache isolation. -/
theorem State.store_cases (s : State) (w : Width) (va value : Word) :
    (w = .word ∧ s.isolated = false ∧ classify (translateVa va) = .main ∧ va.extractLsb' 0 2 = 0#2
        ∧ s.store w va value = { s with ram := s.ram.write32 (ramOffset (translateVa va)) value })
      ∨ (∃ r, s.store w va value = s.raise r)
      ∨ ∃ ds, haltReasons ds = [] ∧ s.store w va value = { s with diags := s.diags ++ ds } := by
  unfold State.store
  split
  · exact .inr (.inr ⟨[_], rfl, rfl⟩)
  · next hi =>
    obtain ⟨hw, hc, ha, he⟩ | h | h := s.write_cases w va value
    · exact .inl ⟨hw, by simpa using hi, hc, ha, he⟩
    · exact .inr (.inl h)
    · exact .inr (.inr h)

theorem State.store_frame (s : State) (w : Width) (va value : Word) :
    (s.store w va value).regs = s.regs ∧ (s.store w va value).shadow = s.shadow ∧ (s.store w va value).pl = s.pl
      ∧ (s.store w va value).pc = s.pc ∧ (s.store w va value).ni = s.ni ∧ (s.store w va value).cop0 = s.cop0
      ∧ (s.store w va value).bios = s.bios := by
  obtain ⟨_, _, _, _, h⟩ | ⟨r, h⟩ | ⟨ds, _, h⟩ := s.store_cases w va value <;> rw [h] <;>
    exact ⟨rfl, rfl, rfl, rfl, rfl, rfl, rfl⟩

@[simp] theorem State.store_regs (s : State) (w : Width) (va v : Word) : (s.store w va v).regs = s.regs := (s.store_frame w va v).1
@[simp] theorem State.store_shadow (s : State) (w : Width) (va v : Word) : (s.store w va v).shadow = s.shadow := (s.store_frame w va v).2.1
@[simp] theorem State.store_pl (s : State) (w : Width) (va v : Word) : (s.store w va v).pl = s.pl := (s.store_frame w va v).2.2.1
@[simp] theorem State.store_pc (s : State) (w : Width) (va v : Word) : (s.store w va v).pc = s.pc := (s.store_frame w va v).2.2.2.1
@[simp] theorem State.store_ni (s : State) (w : Width) (va v : Word) : (s.store w va v).ni = s.ni := (s.store_frame w va v).2.2.2.2.1
@[simp] theorem State.store_cop0 (s : State) (w : Width) (va v : Word) : (s.store w va v).cop0 = s.cop0 := (s.store_frame w va v).2.2.2.2.2.1
@[simp] theorem State.store_bios (s : State) (w : Width) (va v : Word) : (s.store w va v).bios = s.bios := (s.store_frame w va v).2.2.2.2.2.2

theorem State.store_isolated {s : State} (h : s.isolated = true) (w : Width) (va v : Word) : s.store w va v = s.emit (.storeIsolated w) := by
  unfold State.store; rw [if_pos h]

theorem State.store_open {s : State} (h : s.isolated = false) (w : Width) (va v : Word) : s.store w va v = s.write w va v := by
  unfold State.store; rw [if_neg (by simp [h])]

/-- An aligned word store to Main. -/
theorem State.write_word_main (s : State) {va : Word} (v : Word) (ha : va.extractLsb' 0 2 = 0#2) (hc : classify (translateVa va) = .main) :
    s.write .word va v = { s with ram := s.ram.write32 (ramOffset (translateVa va)) v } := by
  unfold State.write; rw [if_neg (by simp [misaligned, ha]), hc]; rfl

/-! ### The parts of the cycle -/

@[simp] theorem State.fetch_regs (s : State) : s.fetch.regs = s.regs := by simp [State.fetch]
@[simp] theorem State.fetch_shadow (s : State) : s.fetch.shadow = s.shadow := by simp [State.fetch]
@[simp] theorem State.fetch_pl (s : State) : s.fetch.pl = s.pl := by simp [State.fetch]
@[simp] theorem State.fetch_pc (s : State) : s.fetch.pc = s.pc := by simp [State.fetch]
@[simp] theorem State.fetch_ni (s : State) : s.fetch.ni = readValue (readWord s s.pc) := rfl
@[simp] theorem State.fetch_cop0 (s : State) : s.fetch.cop0 = s.cop0 := by simp [State.fetch]
@[simp] theorem State.fetch_ram (s : State) : s.fetch.ram = s.ram := by simp [State.fetch]
@[simp] theorem State.fetch_bios (s : State) : s.fetch.bios = s.bios := by simp [State.fetch]

@[simp] theorem State.beginCycle_regs (s : State) : s.beginCycle.regs = s.regs := by simp [State.beginCycle]
@[simp] theorem State.beginCycle_shadow (s : State) : s.beginCycle.shadow = RegFile.write s.shadow s.pl.idx s.pl.val := by simp [State.beginCycle]
@[simp] theorem State.beginCycle_pl (s : State) : s.beginCycle.pl = ⟨0#5, 0#32⟩ := rfl
@[simp] theorem State.beginCycle_pc (s : State) : s.beginCycle.pc = s.pc + 4#32 := by simp [State.beginCycle]
@[simp] theorem State.beginCycle_ni (s : State) : s.beginCycle.ni = readValue (readWord s s.pc) := rfl
@[simp] theorem State.beginCycle_cop0 (s : State) : s.beginCycle.cop0 = s.cop0 := by simp [State.beginCycle]
@[simp] theorem State.beginCycle_ram (s : State) : s.beginCycle.ram = s.ram := by simp [State.beginCycle]
@[simp] theorem State.beginCycle_bios (s : State) : s.beginCycle.bios = s.bios := by simp [State.beginCycle]
@[simp] theorem State.beginCycle_x (s : State) (i : Reg) : s.beginCycle.x i = s.x i := by simp [State.x]
@[simp] theorem State.beginCycle_isolated (s : State) : s.beginCycle.isolated = s.isolated := by simp [State.isolated, State.sr]

/-- A fetch that succeeds neither halts nor reports. -/
theorem State.beginCycle_ok {s : State} {w : Word} (h : readWord s s.pc = .ok w) :
    s.beginCycle.halted = s.halted ∧ s.beginCycle.diags = [] := by
  have h' : readWord { s with diags := [] } s.pc = .ok w := h
  constructor <;> simp only [State.beginCycle, State.fetch, h'] <;> rfl

/-- A fetch that fails halts with its reason. -/
theorem State.beginCycle_error {s : State} {r : HaltReason} (h : readWord s s.pc = .error r) :
    s.beginCycle.halted = true ∧ s.beginCycle.diags = [.halt r] := by
  have h' : readWord { s with diags := [] } s.pc = .error r := h
  constructor <;> simp only [State.beginCycle, State.fetch, h'] <;> rfl

theorem haltReasons_append (a b : List Diag) : haltReasons (a ++ b) = haltReasons a ++ haltReasons b := by
  induction a with
  | nil => rfl
  | cons d rest ih => cases d <;> simp [haltReasons, ih]

end Sys2Proof.Machine
end

