-- ==== Sys2Proof/Laws/Encoding.lean ====
section
/-! SUPPORT. The fields of a word put together in each format (30_encoding R101, R102). -/

namespace Sys2Proof

section RFormat
variable (op : BitVec 6) (rs rt rd : Reg) (shamt : BitVec 5) (funct : BitVec 6)

theorem opcodeField_encodeR : opcodeField (encodeR op rs rt rd shamt funct) = op := by
  apply BitVec.eq_of_getLsbD_eq
  intro k hk
  simp only [encodeR, opcodeField, BitVec.getLsbD_extractLsb', BitVec.getLsbD_append]
  interval_cases k <;> simp

theorem rsField_encodeR : rsField (encodeR op rs rt rd shamt funct) = rs := by
  apply BitVec.eq_of_getLsbD_eq
  intro k hk
  simp only [encodeR, rsField, BitVec.getLsbD_extractLsb', BitVec.getLsbD_append]
  interval_cases k <;> simp

theorem rtField_encodeR : rtField (encodeR op rs rt rd shamt funct) = rt := by
  apply BitVec.eq_of_getLsbD_eq
  intro k hk
  simp only [encodeR, rtField, BitVec.getLsbD_extractLsb', BitVec.getLsbD_append]
  interval_cases k <;> simp

theorem rdField_encodeR : rdField (encodeR op rs rt rd shamt funct) = rd := by
  apply BitVec.eq_of_getLsbD_eq
  intro k hk
  simp only [encodeR, rdField, BitVec.getLsbD_extractLsb', BitVec.getLsbD_append]
  interval_cases k <;> simp

theorem shamtField_encodeR : shamtField (encodeR op rs rt rd shamt funct) = shamt := by
  apply BitVec.eq_of_getLsbD_eq
  intro k hk
  simp only [encodeR, shamtField, BitVec.getLsbD_extractLsb', BitVec.getLsbD_append]
  interval_cases k <;> simp

theorem functField_encodeR : functField (encodeR op rs rt rd shamt funct) = funct := by
  apply BitVec.eq_of_getLsbD_eq
  intro k hk
  simp only [encodeR, functField, BitVec.getLsbD_extractLsb', BitVec.getLsbD_append]
  interval_cases k <;> simp

end RFormat

section IFormat
variable (op : BitVec 6) (rs rt : Reg) (imm : Half)

theorem opcodeField_encodeI : opcodeField (encodeI op rs rt imm) = op := by
  apply BitVec.eq_of_getLsbD_eq
  intro k hk
  simp only [encodeI, opcodeField, BitVec.getLsbD_extractLsb', BitVec.getLsbD_append]
  interval_cases k <;> simp

theorem rsField_encodeI : rsField (encodeI op rs rt imm) = rs := by
  apply BitVec.eq_of_getLsbD_eq
  intro k hk
  simp only [encodeI, rsField, BitVec.getLsbD_extractLsb', BitVec.getLsbD_append]
  interval_cases k <;> simp

theorem rtField_encodeI : rtField (encodeI op rs rt imm) = rt := by
  apply BitVec.eq_of_getLsbD_eq
  intro k hk
  simp only [encodeI, rtField, BitVec.getLsbD_extractLsb', BitVec.getLsbD_append]
  interval_cases k <;> simp

theorem immField_encodeI : immField (encodeI op rs rt imm) = imm := by
  apply BitVec.eq_of_getLsbD_eq
  intro k hk
  simp only [encodeI, immField, BitVec.getLsbD_extractLsb', BitVec.getLsbD_append]
  interval_cases k <;> simp

end IFormat

theorem opcodeField_encodeJ (op : BitVec 6) (target : BitVec 26) : opcodeField (encodeJ op target) = op := by
  apply BitVec.eq_of_getLsbD_eq
  intro k hk
  simp only [encodeJ, opcodeField, BitVec.getLsbD_extractLsb', BitVec.getLsbD_append]
  interval_cases k <;> simp

theorem targetField_encodeJ (op : BitVec 6) (target : BitVec 26) : targetField (encodeJ op target) = target := by
  apply BitVec.eq_of_getLsbD_eq
  intro k hk
  simp only [encodeJ, targetField, BitVec.getLsbD_extractLsb', BitVec.getLsbD_append]
  interval_cases k <;> simp

/-- What a decoded instruction says of its word: the selector fields of its row of 30_encoding R106, and its operands. -/
def Instr.FieldsOf (w : Word) : Instr → Prop
  | .lui rt imm => opcodeField w = 0x0F#6 ∧ rt = rtField w ∧ imm = immField w
  | .ori rt rs imm => opcodeField w = 0x0D#6 ∧ rt = rtField w ∧ rs = rsField w ∧ imm = immField w
  | .andi rt rs imm => opcodeField w = 0x0C#6 ∧ rt = rtField w ∧ rs = rsField w ∧ imm = immField w
  | .addiu rt rs imm => opcodeField w = 0x09#6 ∧ rt = rtField w ∧ rs = rsField w ∧ imm = immField w
  | .addi rt rs imm => opcodeField w = 0x08#6 ∧ rt = rtField w ∧ rs = rsField w ∧ imm = immField w
  | .addu rd rs rt => opcodeField w = 0x00#6 ∧ functField w = 0x21#6 ∧ rd = rdField w ∧ rs = rsField w ∧ rt = rtField w
  | .or rd rs rt => opcodeField w = 0x00#6 ∧ functField w = 0x25#6 ∧ rd = rdField w ∧ rs = rsField w ∧ rt = rtField w
  | .sll rd rt shamt => opcodeField w = 0x00#6 ∧ functField w = 0x00#6 ∧ rd = rdField w ∧ rt = rtField w ∧ shamt = shamtField w
  | .sltu rd rs rt => opcodeField w = 0x00#6 ∧ functField w = 0x2B#6 ∧ rd = rdField w ∧ rs = rsField w ∧ rt = rtField w
  | .j target => opcodeField w = 0x02#6 ∧ target = targetField w
  | .jal target => opcodeField w = 0x03#6 ∧ target = targetField w
  | .jr rs => opcodeField w = 0x00#6 ∧ functField w = 0x08#6 ∧ rs = rsField w
  | .bne rs rt offset => opcodeField w = 0x05#6 ∧ rs = rsField w ∧ rt = rtField w ∧ offset = immField w
  | .lw rt base offset => opcodeField w = 0x23#6 ∧ rt = rtField w ∧ base = rsField w ∧ offset = immField w
  | .sb rt base offset => opcodeField w = 0x28#6 ∧ rt = rtField w ∧ base = rsField w ∧ offset = immField w
  | .sh rt base offset => opcodeField w = 0x29#6 ∧ rt = rtField w ∧ base = rsField w ∧ offset = immField w
  | .sw rt base offset => opcodeField w = 0x2B#6 ∧ rt = rtField w ∧ base = rsField w ∧ offset = immField w
  | .mtc0 rt rd => opcodeField w = 0x10#6 ∧ rsField w = 0x04#5 ∧ rt = rtField w ∧ rd = rdField w

/-- A conditional that decodes, by its condition. -/
theorem ite_eq_ok {c : Prop} [Decidable c] {a b : Except Reject Instr} {i : Instr} (h : (if c then a else b) = .ok i) :
    (c ∧ a = .ok i) ∨ (¬c ∧ b = .ok i) := by
  by_cases hc : c
  · exact .inl ⟨hc, by rwa [if_pos hc] at h⟩
  · exact .inr ⟨hc, by rwa [if_neg hc] at h⟩

/-- Decoding gives exactly the instruction whose fields are the word's. -/
theorem decodeWord_eq_ok_iff (w : Word) (i : Instr) : decodeWord w = .ok i ↔ i.FieldsOf w := by
  constructor
  · intro h
    unfold decodeWord at h
    obtain ⟨h0, h⟩ | ⟨-, h⟩ := ite_eq_ok h
    · unfold decodeSpecial at h
      obtain ⟨h1, h⟩ | ⟨-, h⟩ := ite_eq_ok h
      · cases h; simp [Instr.FieldsOf, h0, h1]
      obtain ⟨h1, h⟩ | ⟨-, h⟩ := ite_eq_ok h
      · cases h; simp [Instr.FieldsOf, h0, h1]
      obtain ⟨h1, h⟩ | ⟨-, h⟩ := ite_eq_ok h
      · cases h; simp [Instr.FieldsOf, h0, h1]
      obtain ⟨h1, h⟩ | ⟨-, h⟩ := ite_eq_ok h
      · cases h; simp [Instr.FieldsOf, h0, h1]
      obtain ⟨h1, h⟩ | ⟨-, h⟩ := ite_eq_ok h
      · cases h; simp [Instr.FieldsOf, h0, h1]
      · cases h
    obtain ⟨h0, h⟩ | ⟨-, h⟩ := ite_eq_ok h
    · cases h; simp [Instr.FieldsOf, h0]
    obtain ⟨h0, h⟩ | ⟨-, h⟩ := ite_eq_ok h
    · cases h; simp [Instr.FieldsOf, h0]
    obtain ⟨h0, h⟩ | ⟨-, h⟩ := ite_eq_ok h
    · cases h; simp [Instr.FieldsOf, h0]
    obtain ⟨h0, h⟩ | ⟨-, h⟩ := ite_eq_ok h
    · cases h; simp [Instr.FieldsOf, h0]
    obtain ⟨h0, h⟩ | ⟨-, h⟩ := ite_eq_ok h
    · cases h; simp [Instr.FieldsOf, h0]
    obtain ⟨h0, h⟩ | ⟨-, h⟩ := ite_eq_ok h
    · cases h; simp [Instr.FieldsOf, h0]
    obtain ⟨h0, h⟩ | ⟨-, h⟩ := ite_eq_ok h
    · cases h; simp [Instr.FieldsOf, h0]
    obtain ⟨h0, h⟩ | ⟨-, h⟩ := ite_eq_ok h
    · cases h; simp [Instr.FieldsOf, h0]
    obtain ⟨h0, h⟩ | ⟨-, h⟩ := ite_eq_ok h
    · unfold decodeCop0 at h
      obtain ⟨h1, h⟩ | ⟨-, h⟩ := ite_eq_ok h
      · cases h; simp [Instr.FieldsOf, h0, h1]
      · cases h
    obtain ⟨h0, h⟩ | ⟨-, h⟩ := ite_eq_ok h
    · cases h; simp [Instr.FieldsOf, h0]
    obtain ⟨h0, h⟩ | ⟨-, h⟩ := ite_eq_ok h
    · cases h; simp [Instr.FieldsOf, h0]
    obtain ⟨h0, h⟩ | ⟨-, h⟩ := ite_eq_ok h
    · cases h; simp [Instr.FieldsOf, h0]
    obtain ⟨h0, h⟩ | ⟨-, h⟩ := ite_eq_ok h
    · cases h; simp [Instr.FieldsOf, h0]
    cases h
  · intro h
    cases i <;> simp only [Instr.FieldsOf] at h <;> simp [decodeWord, decodeSpecial, decodeCop0, h]

/-- The selector and operand fields of a masked word. -/
theorem fields_and (w m : Word) :
    opcodeField (w &&& m) = opcodeField w &&& opcodeField m ∧ rsField (w &&& m) = rsField w &&& rsField m
      ∧ rtField (w &&& m) = rtField w &&& rtField m ∧ rdField (w &&& m) = rdField w &&& rdField m
      ∧ shamtField (w &&& m) = shamtField w &&& shamtField m ∧ functField (w &&& m) = functField w &&& functField m
      ∧ immField (w &&& m) = immField w &&& immField m ∧ targetField (w &&& m) = targetField w &&& targetField m := by
  refine ⟨?_, ?_, ?_, ?_, ?_, ?_, ?_, ?_⟩ <;>
    simp [opcodeField, rsField, rtField, rdField, shamtField, functField, immField, targetField, BitVec.extractLsb'_and]

end Sys2Proof
end

