-- ==== Sys2Proof/Laws/PerInstr.lean ====
section
/-! SUPPORT. Per-instruction laws of the encoder: the encoded word has, under the mask of its opcode-table row, exactly the
row's pattern, and no bit outside those its rule reads (spec/opcode_table.json, 30_encoding R111). -/

namespace Sys2Proof.Laws.EncodePattern

/-- The encoded word is of its own opcode-table row, and its unused bits are 0. -/
def Statement (i : Instr) : Prop := encode i &&& i.row.mask = i.row.pattern ∧ encode i &&& i.row.used = encode i

/-- A word is its row's when each bit is. -/
theorem word_eq_of_bits {a b : Word} (h : ∀ k < 32, a.getLsbD k = b.getLsbD k) : a = b :=
  BitVec.eq_of_getLsbD_eq fun k hk => h k hk

theorem lui (rt : Reg) (imm : Half) : Statement (.lui rt imm) := by
  constructor <;> refine word_eq_of_bits fun k hk => ?_ <;>
    simp only [encode, encodeI, Instr.row, BitVec.getLsbD_and, BitVec.getLsbD_append] <;> interval_cases k <;> simp

theorem ori (rt rs : Reg) (imm : Half) : Statement (.ori rt rs imm) := by
  constructor <;> refine word_eq_of_bits fun k hk => ?_ <;>
    simp only [encode, encodeI, Instr.row, BitVec.getLsbD_and, BitVec.getLsbD_append] <;> interval_cases k <;> simp

theorem andi (rt rs : Reg) (imm : Half) : Statement (.andi rt rs imm) := by
  constructor <;> refine word_eq_of_bits fun k hk => ?_ <;>
    simp only [encode, encodeI, Instr.row, BitVec.getLsbD_and, BitVec.getLsbD_append] <;> interval_cases k <;> simp

theorem addiu (rt rs : Reg) (imm : Half) : Statement (.addiu rt rs imm) := by
  constructor <;> refine word_eq_of_bits fun k hk => ?_ <;>
    simp only [encode, encodeI, Instr.row, BitVec.getLsbD_and, BitVec.getLsbD_append] <;> interval_cases k <;> simp

theorem addi (rt rs : Reg) (imm : Half) : Statement (.addi rt rs imm) := by
  constructor <;> refine word_eq_of_bits fun k hk => ?_ <;>
    simp only [encode, encodeI, Instr.row, BitVec.getLsbD_and, BitVec.getLsbD_append] <;> interval_cases k <;> simp

theorem addu (rd rs rt : Reg) : Statement (.addu rd rs rt) := by
  constructor <;> refine word_eq_of_bits fun k hk => ?_ <;>
    simp only [encode, encodeR, Instr.row, BitVec.getLsbD_and, BitVec.getLsbD_append] <;> interval_cases k <;> simp

theorem or (rd rs rt : Reg) : Statement (.or rd rs rt) := by
  constructor <;> refine word_eq_of_bits fun k hk => ?_ <;>
    simp only [encode, encodeR, Instr.row, BitVec.getLsbD_and, BitVec.getLsbD_append] <;> interval_cases k <;> simp

theorem sll (rd rt : Reg) (shamt : BitVec 5) : Statement (.sll rd rt shamt) := by
  constructor <;> refine word_eq_of_bits fun k hk => ?_ <;>
    simp only [encode, encodeR, Instr.row, BitVec.getLsbD_and, BitVec.getLsbD_append] <;> interval_cases k <;> simp

theorem sltu (rd rs rt : Reg) : Statement (.sltu rd rs rt) := by
  constructor <;> refine word_eq_of_bits fun k hk => ?_ <;>
    simp only [encode, encodeR, Instr.row, BitVec.getLsbD_and, BitVec.getLsbD_append] <;> interval_cases k <;> simp

theorem j (target : BitVec 26) : Statement (.j target) := by
  constructor <;> refine word_eq_of_bits fun k hk => ?_ <;>
    simp only [encode, encodeJ, Instr.row, BitVec.getLsbD_and, BitVec.getLsbD_append] <;> interval_cases k <;> simp

theorem jal (target : BitVec 26) : Statement (.jal target) := by
  constructor <;> refine word_eq_of_bits fun k hk => ?_ <;>
    simp only [encode, encodeJ, Instr.row, BitVec.getLsbD_and, BitVec.getLsbD_append] <;> interval_cases k <;> simp

theorem jr (rs : Reg) : Statement (.jr rs) := by
  constructor <;> refine word_eq_of_bits fun k hk => ?_ <;>
    simp only [encode, encodeR, Instr.row, BitVec.getLsbD_and, BitVec.getLsbD_append] <;> interval_cases k <;> simp

theorem bne (rs rt : Reg) (offset : Half) : Statement (.bne rs rt offset) := by
  constructor <;> refine word_eq_of_bits fun k hk => ?_ <;>
    simp only [encode, encodeI, Instr.row, BitVec.getLsbD_and, BitVec.getLsbD_append] <;> interval_cases k <;> simp

theorem lw (rt base : Reg) (offset : Half) : Statement (.lw rt base offset) := by
  constructor <;> refine word_eq_of_bits fun k hk => ?_ <;>
    simp only [encode, encodeI, Instr.row, BitVec.getLsbD_and, BitVec.getLsbD_append] <;> interval_cases k <;> simp

theorem sb (rt base : Reg) (offset : Half) : Statement (.sb rt base offset) := by
  constructor <;> refine word_eq_of_bits fun k hk => ?_ <;>
    simp only [encode, encodeI, Instr.row, BitVec.getLsbD_and, BitVec.getLsbD_append] <;> interval_cases k <;> simp

theorem sh (rt base : Reg) (offset : Half) : Statement (.sh rt base offset) := by
  constructor <;> refine word_eq_of_bits fun k hk => ?_ <;>
    simp only [encode, encodeI, Instr.row, BitVec.getLsbD_and, BitVec.getLsbD_append] <;> interval_cases k <;> simp

theorem sw (rt base : Reg) (offset : Half) : Statement (.sw rt base offset) := by
  constructor <;> refine word_eq_of_bits fun k hk => ?_ <;>
    simp only [encode, encodeI, Instr.row, BitVec.getLsbD_and, BitVec.getLsbD_append] <;> interval_cases k <;> simp

theorem mtc0 (rt rd : Reg) : Statement (.mtc0 rt rd) := by
  constructor <;> refine word_eq_of_bits fun k hk => ?_ <;>
    simp only [encode, encodeR, Instr.row, BitVec.getLsbD_and, BitVec.getLsbD_append] <;> interval_cases k <;> simp

end Sys2Proof.Laws.EncodePattern
end

