-- ==== Sys2Proof/Laws/Step.lean ====
section
/-! SUPPORT. What exec and step can answer, and what every instruction leaves unchanged. -/

namespace Sys2Proof.Machine

/-- What no instruction changes: the visible register file (10_state R20), the latch (R26) and the firmware (R32). -/
theorem exec_common {i : Instr} {s t : State} (h : exec i s = .next t) : t.regs = s.regs ∧ t.ni = s.ni ∧ t.bios = s.bios := by
  cases i <;>
    simp only [exec, execLui, execOri, execAndi, execAddiu, execAddi, execAddu, execOr, execSll, execSltu, execJ, execJal, execJr,
      execBne, execLw, execSb, execSh, execSw, execMtc0] at h <;>
    (try split at h) <;> cases h <;> simp

/-- A word that decodes runs as its instruction. -/
theorem step_decoded {s : State} (hr : s.Running) {i : Instr} (hd : decodeWord s.ni = .ok i) :
    step s = publishOutcome (exec i s.beginCycle) := by
  unfold step; rw [hr, hd]; rfl

/-- A word that does not decode halts as unimplemented. -/
theorem step_rejected {s : State} (hr : s.Running) {r : Reject} (hd : decodeWord s.ni = .error r) :
    step s = .next (s.beginCycle.unimplemented s.ni).publish := by
  unfold step; rw [hr, hd]; rfl

/-- What publishing an outcome gives, where it gives a next state. -/
theorem publishOutcome_next {o : Host.Outcome State Fault Refusal} {t : State} (h : publishOutcome o = .next t) :
    ∃ b, o = .next b ∧ t = b.publish := by
  cases o with
  | next b => exact ⟨b, rfl, by simpa [publishOutcome] using h.symm⟩
  | fault r => simp [publishOutcome] at h
  | refused r => simp [publishOutcome] at h

/-- Everything a cycle can do (10_state R49): a running engine executes its latched word, decoded or not. -/
theorem step_cases {s t : State} (h : step s = .next t) :
    s.Running ∧ ((∃ i b, decodeWord s.ni = .ok i ∧ exec i s.beginCycle = .next b ∧ t = b.publish)
      ∨ ∃ r, decodeWord s.ni = .error r ∧ t = (s.beginCycle.unimplemented s.ni).publish) := by
  cases hh : s.halted with
  | true => unfold step at h; simp [hh] at h
  | false =>
    refine ⟨hh, ?_⟩
    cases hd : decodeWord s.ni with
    | ok i =>
      rw [step_decoded hh hd] at h
      obtain ⟨b, hb, ht⟩ := publishOutcome_next h
      exact .inl ⟨i, b, rfl, hb, ht⟩
    | error r =>
      rw [step_rejected hh hd] at h
      exact .inr ⟨r, rfl, by simpa using h.symm⟩

/-- A file of unlisted bytes lists nothing. -/
theorem Memory.ofBytesFrom_unlisted (n a : Nat) : Memory.ofBytesFrom a (List.replicate n Memory.unlisted) = [] := by
  induction n generalizing a with
  | zero => rfl
  | succ n ih => simp only [List.replicate_succ, Memory.ofBytesFrom, if_pos]; exact ih (a + 1)

/-- The reset state is what construction gives for registers and RAM of zeros and a firmware file of zeros (logs 4, 6, 7). -/
theorem State.reset_eq_construct :
    State.reset = State.construct (Vector.replicate 32 0#32) [] (List.replicate Config.biosSize Memory.unlisted) := by
  simp only [State.reset, State.construct, firmwareImage, firmwareDiags, List.length_replicate, if_pos, Memory.ofBytes,
    Memory.ofBytesFrom_unlisted]
  rfl

end Sys2Proof.Machine
end

