-- ==== Sys2Proof/Tests/Slice0.lean ====
section
/-! SUPPORT. Tests and witnesses. Expected results are the spec's test vectors (95_test_vectors, the row named in each
docstring) or hand calculation from the rule named. A `witness_<statement>` shows concrete states and operands that meet all
hypotheses of that statement of Certificates/Slice0/Obligations.lean together, each of its clauses at the edges of its range. -/

open Sys2Proof Sys2Proof.Machine

namespace Sys2Proof.Tests

/-! ### Helpers -/

/-- A register file of zeros with these entries. -/
def file : List (Reg × Word) → RegFile
  | [] => Vector.replicate 32 0#32
  | (r, v) :: rest => RegFile.write (file rest) r v

/-- A running machine: these registers, this RAM, this word latched, this program counter. -/
def machine (regs : List (Reg × Word)) (w : Word) (pc : Word := 0x100#32) (ram : Memory := []) : State :=
  { State.reset with regs := file regs, shadow := file regs, ni := w, pc := pc, ram := ram }

/-- The same with the cache-isolation bit set. -/
def isolated (regs : List (Reg × Word)) (w : Word) : State := (machine regs w).setSr 0x00010000#32

/-- The step answers a next state. -/
def completes (s : State) : Bool :=
  match step s with
  | .next _ => true
  | .fault _ => false
  | .refused _ => false

/-- The state a step answers. -/
def after (s : State) : State :=
  match step s with
  | .next t => t
  | .fault _ => s
  | .refused _ => s

theorem step_after {s : State} (h : completes s = true) : step s = .next (after s) := by
  unfold completes at h; unfold after; split at h <;> simp_all

/-- All of a few samples satisfy `p`. (`∀ x ∈ l` over words would be decided by trying every word.) -/
abbrev Each {α : Type} (l : List α) (p : α → Prop) : Prop := l.Forall p

/-- A word that a decoder rejects decodes to nothing. -/
theorem no_instr {w : Word} {r : Reject} (h : decodeWord w = .error r) : ∀ i, decodeWord w ≠ .ok i :=
  fun _ e => by rw [h] at e; cases e

/-! ### WellFormed: each check refuses an ill-formed line -/

theorem test_imm_too_wide : Asm.wellFormed 0#32 (.lui 8 0x10000) = false ∧ Asm.wellFormed 0#32 (.ori 8 8 0x10000) = false
    ∧ Asm.wellFormed 0#32 (.andi 8 8 0x10000) = false ∧ Asm.wellFormed 0#32 (.andi 8 8 0xFFFF) = true := by decide
theorem test_simm_out_of_range : Asm.wellFormed 0#32 (.addiu 8 8 32768) = false ∧ Asm.wellFormed 0#32 (.addi 8 8 (-32769)) = false
    ∧ Asm.wellFormed 0#32 (.addiu 8 8 (-32768)) = true ∧ Asm.wellFormed 0#32 (.addi 8 8 32767) = true := by decide
theorem test_displacement_out_of_range : Asm.wellFormed 0#32 (.lw 8 32768 9) = false ∧ Asm.wellFormed 0#32 (.sb 8 (-32769) 9) = false
    ∧ Asm.wellFormed 0#32 (.sh 8 32768 9) = false ∧ Asm.wellFormed 0#32 (.sw 8 32768 9) = false
    ∧ Asm.wellFormed 0#32 (.sw 8 (-32768) 9) = true := by decide
theorem test_shift_too_far : Asm.wellFormed 0#32 (.sll 8 9 32) = false ∧ Asm.wellFormed 0#32 (.sll 8 9 31) = true := by decide
theorem test_jump_misaligned : Asm.wellFormed 0#32 (.j 0x102#32) = false ∧ Asm.wellFormed 0#32 (.jal 0x101#32) = false := by decide
theorem test_jump_other_region : Asm.wellFormed 0xBFC00000#32 (.j 0x100#32) = false
    ∧ Asm.wellFormed 0x0FFFFFF8#32 (.j 0x100#32) = false ∧ Asm.wellFormed 0xBFC00000#32 (.j 0xBFC00040#32) = true := by decide
theorem test_branch_misaligned : Asm.wellFormed 0#32 (.bne 8 9 0x102#32) = false ∧ Asm.wellFormed 0#32 (.bnez 8 6#32) = false := by
  decide
/-- The reach of BNE is `A + 4 - 0x2_0000` to `A + 4 + 0x1_FFFC` (V-CT). -/
theorem test_branch_too_far : Asm.wellFormed 0xBFC00000#32 (.bne 9 0 0xBFC20004#32) = false
    ∧ Asm.wellFormed 0xBFC00000#32 (.bne 9 0 0xBFC20000#32) = true
    ∧ Asm.wellFormed 0x80020000#32 (.bne 9 0 0x80000000#32) = false
    ∧ Asm.wellFormed 0x80020000#32 (.bne 9 0 0x80000004#32) = true := by decide

/-! ### Decode: one word per constructor, bit by bit from the encoding strings of spec/opcode_table.json -/

theorem test_decode_lui : decodeWord (0b001111#6 ++ 0b00000#5 ++ 0b01000#5 ++ 0b0001001000110100#16) = .ok (.lui 8 0x1234) := by decide
theorem test_decode_ori : decodeWord (0b001101#6 ++ 0b01001#5 ++ 0b01000#5 ++ 0b0101011001111000#16) = .ok (.ori 8 9 0x5678) := by decide
theorem test_decode_andi : decodeWord (0b001100#6 ++ 0b01001#5 ++ 0b01000#5 ++ 0b1000000011111111#16) = .ok (.andi 8 9 0x80FF) := by decide
theorem test_decode_addiu : decodeWord (0b001001#6 ++ 0b01001#5 ++ 0b01000#5 ++ 0b1111111111111111#16) = .ok (.addiu 8 9 0xFFFF) := by decide
theorem test_decode_addi : decodeWord (0b001000#6 ++ 0b01001#5 ++ 0b01000#5 ++ 0b1000000000000001#16) = .ok (.addi 8 9 0x8001) := by decide
theorem test_decode_addu : decodeWord (0b000000#6 ++ 0b01000#5 ++ 0b01001#5 ++ 0b01010#5 ++ 0b00000#5 ++ 0b100001#6) = .ok (.addu 10 8 9) := by
  decide
theorem test_decode_or : decodeWord (0b000000#6 ++ 0b01000#5 ++ 0b01001#5 ++ 0b01010#5 ++ 0b00000#5 ++ 0b100101#6) = .ok (.or 10 8 9) := by
  decide
theorem test_decode_sll : decodeWord (0b000000#6 ++ 0b00000#5 ++ 0b01001#5 ++ 0b01010#5 ++ 0b11111#5 ++ 0b000000#6) = .ok (.sll 10 9 31) := by
  decide
theorem test_decode_sltu : decodeWord (0b000000#6 ++ 0b01000#5 ++ 0b01001#5 ++ 0b01010#5 ++ 0b00000#5 ++ 0b101011#6) = .ok (.sltu 10 8 9) := by
  decide
theorem test_decode_j : decodeWord (0b000010#6 ++ 0b11111100000000000000010000#26) = .ok (.j 0x3F00010) := by decide
theorem test_decode_jal : decodeWord (0b000011#6 ++ 0b11111100000000000000010000#26) = .ok (.jal 0x3F00010) := by decide
theorem test_decode_jr : decodeWord (0b000000#6 ++ 0b11111#5 ++ 0b00000#5 ++ 0b00000#5 ++ 0b00000#5 ++ 0b001000#6) = .ok (.jr 31) := by decide
theorem test_decode_bne : decodeWord (0b000101#6 ++ 0b01001#5 ++ 0b00010#5 ++ 0b1111111111111110#16) = .ok (.bne 9 2 0xFFFE) := by decide
theorem test_decode_lw : decodeWord (0b100011#6 ++ 0b01001#5 ++ 0b01000#5 ++ 0b0000000000000100#16) = .ok (.lw 8 9 4) := by decide
theorem test_decode_sb : decodeWord (0b101000#6 ++ 0b01001#5 ++ 0b01000#5 ++ 0b0000000000000001#16) = .ok (.sb 8 9 1) := by decide
theorem test_decode_sh : decodeWord (0b101001#6 ++ 0b01001#5 ++ 0b01000#5 ++ 0b0000000000000010#16) = .ok (.sh 8 9 2) := by decide
theorem test_decode_sw : decodeWord (0b101011#6 ++ 0b01001#5 ++ 0b01000#5 ++ 0b0000000000000100#16) = .ok (.sw 8 9 4) := by decide
theorem test_decode_mtc0 : decodeWord (0b010000#6 ++ 0b00100#5 ++ 0b01000#5 ++ 0b01100#5 ++ 0b00000000000#11) = .ok (.mtc0 8 12) := by decide

/-- V-UI, V-AR, V-C0: words of the family that the CORE does not implement, and unused fields that are not checked. -/
theorem test_decode_rejects : decodeWord 0xFC000000#32 = .error (.opcode 0x3F) ∧ decodeWord 0x10000001#32 = .error (.opcode 0x04)
    ∧ decodeWord 0x0000000D#32 = .error (.special 0x0D) ∧ decodeWord 0x01095023#32 = .error (.special 0x23)
    ∧ decodeWord 0x40086000#32 = .error (.cop0 0x00) ∧ decodeWord 0x42000010#32 = .error (.cop0 0x10)
    ∧ decodeWord 0x03E95100#32 = .ok (.sll 10 9 4) ∧ decodeWord 0x010950E1#32 = .ok (.addu 10 8 9) := by decide
/-- L1-1, the rows 0x8C09_FFFF and 0x4088_6000. -/
theorem test_fields : rdField 0x8C09FFFF#32 = 31 ∧ immField 0x8C09FFFF#32 = 0xFFFF ∧ targetField 0x8C09FFFF#32 = 0x009FFFF
    ∧ opcodeField 0x40886000#32 = 0x10 ∧ rsField 0x40886000#32 = 4 ∧ rtField 0x40886000#32 = 8 ∧ rdField 0x40886000#32 = 12 := by
  decide
/-- No two rows of the opcode table overlap. -/
theorem test_opcode_table_disjoint : opcodeTable.Pairwise fun r q => r.overlaps q = false := by decide
theorem test_table_word : decodeTableWord 32 0x34000000 = some (.ori 0 0 0) ∧ decodeTableWord 32 0xFC000000 = none := by decide
theorem test_fetch_word_runs : (after (State.reset.withFetchWord 32 0x3C081234)).x 8 = 0x12340000#32 := by decide
/-- Too few bytes are no word; four and more are read little-endian (30_encoding R100). -/
theorem test_decode_bytes : decodeBytes [0x34, 0x12, 0x08] = .error .truncated
    ∧ decodeBytes [0x34, 0x12, 0x08, 0x3C, 0x99] = .ok (.lui 8 0x1234, [0x99]) := by rw [decodeBytes, decodeBytes]; decide

/-! ### Single steps -/

/-- V-AI. -/
theorem test_lui : (after (machine [] 0x3C08FFFF#32)).x 8 = 0xFFFF0000#32 := by decide
/-- L1-3: a write to register 0 is discarded. -/
theorem test_lui_zero : (after (machine [] 0x3C00FFFF#32)).regs[0] = 0#32 := by decide
/-- V-AI: the immediate of ORI is zero-extended. -/
theorem test_ori : (after (machine [(8, 0xFFFF0000)] 0x35088001#32)).x 8 = 0xFFFF8001#32 := by decide
/-- V-AI: the high half of ANDI's result is 0. -/
theorem test_andi : (after (machine [(8, 0xFFFFFFFF)] 0x31088000#32)).x 8 = 0x00008000#32 := by decide
/-- V-AI: ADDIU wraps without a halt. -/
theorem test_addiu_wraps : (after (machine [(8, 0x7FFFFFFF)] 0x25080001#32)).x 8 = 0x80000000#32
    ∧ (after (machine [(8, 0x7FFFFFFF)] 0x25080001#32)).halted = false := by decide
theorem test_addiu_negative : (after (machine [] 0x25088000#32)).x 8 = 0xFFFF8000#32 := by decide
/-- V-AI: -1 + 1 does not overflow, 0x7FFF_FFFF + 1 does, and then the register stands. -/
theorem test_addi : (after (machine [(8, 0xFFFFFFFF)] 0x21080001#32)).x 8 = 0#32
    ∧ (after (machine [(8, 0xFFFFFFFF)] 0x21080001#32)).halted = false := by decide
theorem test_addi_overflow : (after (machine [(8, 0x7FFFFFFF)] 0x21080001#32)).x 8 = 0x7FFFFFFF#32
    ∧ (after (machine [(8, 0x7FFFFFFF)] 0x21080001#32)).diags = [.halt (.addiOverflow 0x21080001 0x7FFFFFFF)]
    ∧ (after (machine [(8, 0x80000000)] 0x2108FFFF#32)).halted = true := by decide
/-- V-AR. -/
theorem test_addu : (after (machine [(8, 0xFFFFFFFF), (9, 2)] 0x01095021#32)).x 10 = 1#32 := by decide
/-- V-AR: sources are read before the destination is written. -/
theorem test_addu_same : (after (machine [(8, 0x80000001)] 0x01084021#32)).x 8 = 2#32 := by decide
theorem test_or : (after (machine [(8, 0x0F0F0000), (9, 0x0000F0F0)] 0x01095025#32)).x 10 = 0x0F0FF0F0#32 := by decide
theorem test_sll : (after (machine [(9, 3)] 0x000957C0#32)).x 10 = 0x80000000#32 := by decide
theorem test_sltu : (after (machine [(8, 1), (9, 0xFFFFFFFF)] 0x0109502B#32)).x 10 = 1#32 := by decide
theorem test_sltu_swapped : (after (machine [(8, 1), (9, 0xFFFFFFFF)] 0x0128502B#32)).x 10 = 0#32 := by decide
/-- V-CT: the region bits come from the program counter (the jump is at 0x8000_0000, so the step starts at A + 4). -/
theorem test_j_region : (after (machine [] 0x08000040#32 0x80000004#32)).pc = 0x80000100#32 := by decide
theorem test_jal : (after (machine [] 0x0FF00010#32 0xBFC00004#32)).x 31 = 0xBFC00008#32
    ∧ (after (machine [] 0x0FF00010#32 0xBFC00004#32)).pc = 0xBFC00040#32 := by decide
theorem test_jr : (after (machine [(31, 0xBFC00102)] 0x03E00008#32)).pc = 0xBFC00102#32
    ∧ (after (machine [(31, 0xBFC00102)] 0x03E00008#32)).halted = false := by decide
/-- L1-10, V-CT: the BNE at 0xBFC0_000C with offset -2. -/
theorem test_bne_taken : (after (machine [(9, 2)] 0x1520FFFE#32 0xBFC00010#32)).pc = 0xBFC00008#32 := by decide
theorem test_bne_not_taken : (after (machine [] 0x1520FFFE#32 0xBFC00010#32)).pc = 0xBFC00014#32 := by decide
/-- L1-4: the load is pending after its own cycle, the register as before. -/
theorem test_lw : (after (machine [(9, 0xDEADBEEF)] 0x8C090000#32 0x100#32 [(0, 0x78), (1, 0x56), (2, 0x34), (3, 0x12)])).pl
      = ⟨9, 0x12345678⟩
    ∧ (after (machine [(9, 0xDEADBEEF)] 0x8C090000#32)).x 9 = 0xDEADBEEF#32 := by decide
/-- V-LS: a misaligned LW halts with (rt, 0) pending. -/
theorem test_lw_misaligned : (after (machine [] 0x8C090002#32)).pl = ⟨9, 0⟩
    ∧ (after (machine [] 0x8C090002#32)).diags = [.halt (.misalignedRead 2)] := by decide
/-- V-LS: SB to Main changes nothing and halts nothing; to Unmapped it halts. -/
theorem test_sb : (after (machine [(9, 0xAB)] 0xA0090001#32)).ram = [] ∧ (after (machine [(9, 0xAB)] 0xA0090001#32)).halted = false := by
  decide
theorem test_sb_unmapped : (after (machine [(8, 0x20000000)] 0xA1000000#32)).diags
    = [.halt (.unhandledWrite 0x20000000 0x20000000 .unmapped 0)] := by decide
/-- V-LS: SH checks alignment before the region. -/
theorem test_sh_misaligned : (after (machine [(8, 0x1F800000)] 0xA5001001#32)).diags = [.halt (.misalignedWrite 0x1F801001 2)] := by decide
theorem test_sh : (after (machine [(8, 0x1234)] 0xA4080002#32)).diags = [.narrowStoreIgnored 2 .half 0x1234] := by decide
/-- V-LS: SW through the 0xA020_0000 mirror. -/
theorem test_sw_mirror : (after (machine [(8, 0xA0200000), (9, 0x5A)] 0xAD090000#32)).ram = [(0, 0x5A)] := by decide
/-- L1-8: SW to BIOS neither halts nor writes. -/
theorem test_sw_bios : (after (machine [(8, 0xBFC00000), (9, 0xFFFFFFFF)] 0xAD090000#32)).bios = []
    ∧ (after (machine [(8, 0xBFC00000), (9, 0xFFFFFFFF)] 0xAD090000#32)).diags
      = [.firmwareWriteRejected 0xBFC00000 .word 0xFFFFFFFF] := by decide
/-- V-C0: register 12 takes the word, 28 is not an alias of 12. -/
theorem test_mtc0 : (after (machine [(8, 0x00010000)] 0x40886000#32)).sr = 0x00010000#32 := by decide
theorem test_mtc0_28 : (after (machine [(8, 0x00010000)] 0x4088E000#32)).sr = 0#32
    ∧ (after (machine [(8, 0x00010000)] 0x4088E000#32)).diags = [.cop0WriteIgnored 28] := by decide
/-- L1-9: under isolation a misaligned SW does nothing and does not halt. -/
theorem test_isolated_sw : (after (isolated [] 0xAC000002#32)).halted = false
    ∧ (after (isolated [] 0xAC000002#32)).diags = [.storeIsolated .word] := by decide
/-- V-UI: an unimplemented word halts, and the program counter has advanced. -/
theorem test_unimplemented : (after (machine [] 0xFC000000#32)).diags = [.halt (.unimplemented 0xFC000000 0x3F 0)]
    ∧ (after (machine [] 0xFC000000#32)).pc = 0x104#32 := by decide
/-- V-CT, fetch past the end of BIOS: the fetch halts and the latched ADDIU still executes. -/
theorem test_fetch_halt : (after (machine [] 0x24090002#32 0xBFC80000#32)).diags
      = [.halt (.unhandledRead 0xBFC80000 0x1FC80000 .unmapped)]
    ∧ (after (machine [] 0x24090002#32 0xBFC80000#32)).x 9 = 2#32 := by decide
/-- R64, the boundaries of V-CL, and the translations of L1-11. -/
theorem test_classify : classify 0x007FFFFF#32 = .main ∧ classify 0x00800000#32 = .scratchpad ∧ classify 0x1EFFFFFF#32 = .scratchpad
    ∧ classify 0x1F000000#32 = .expansion1 ∧ classify 0x1F7FFFFF#32 = .expansion1 ∧ classify 0x1F800FFF#32 = .scratchpad
    ∧ classify 0x1F801000#32 = .hardwareRegs ∧ classify 0x1F803000#32 = .unmapped ∧ classify 0x1FC7FFFF#32 = .bios
    ∧ classify 0x1FC80000#32 = .unmapped ∧ classify 0xFFFE0FFF#32 = .io ∧ classify 0xFFFFFFFF#32 = .unmapped := by decide
theorem test_translate : translateVa 0x9FC00000#32 = 0x1FC00000#32 ∧ translateVa 0xBFC7FFFC#32 = 0x1FC7FFFC#32
    ∧ translateVa 0xC0000000#32 = 0xC0000000#32 ∧ translateVa 0xFFFE0130#32 = 0xFFFE0130#32 := by decide
/-- Writing the unlisted value removes the cell, so equal memories are equal lists. -/
theorem test_memory_canonical : Memory.write (Memory.write [] 5 0x11) 5 0 = []
    ∧ Memory.write (Memory.write [] 5 0x11) 2 0x22 = [(2, 0x22), (5, 0x11)] := by decide
/-- 30_encoding R114, R115: V-CT's J and BNE lines, and the three shapes of LI. -/
theorem test_assemble : Asm.assemble 0xBFC00000#32 (.j 0xBFC00040#32) = [.j 0x3F00010]
    ∧ Asm.assemble 0xBFC0000C#32 (.bnez 9 0xBFC00008#32) = [.bne 9 0 0xFFFE]
    ∧ Asm.assemble 0#32 (.li 8 0x5678) = [.ori 8 0 0x5678] ∧ Asm.assemble 0#32 (.li 8 0xFFFF8000) = [.addiu 8 0 0x8000]
    ∧ Asm.assemble 0#32 (.li 8 0x12345678) = [.lui 8 0x1234, .ori 8 8 0x5678] ∧ RegName.index .ra = 31 := by decide
/-- 10_state R35: register 0, the entry address and the latch at construction. -/
theorem test_reset : State.reset.Inv ∧ State.reset.pc = 0xBFC00000#32 ∧ State.reset.ni = 0#32 ∧ State.reset.halted = false := by decide

/-! ### Witnesses: encoding -/

theorem witness_BytesDecodeLittleEndian : decodeWord (wordOfBytes 0x34 0x12 0x08 0x3C) = .ok (.lui 8 0x1234)
    ∧ decodeWord (wordOfBytes 0 0 0 0xFC) = .error (.opcode 0x3F) := by decide

/-- The words that meet the twenty-one clauses in turn; the last three rows are at the edges of the selectors' gaps. -/
theorem witness_DispatchBySelectorFields :
    (∀ p ∈ [(0x03E95100#32, 0x00), (0x03E00008#32, 0x08), (0x010950E1#32, 0x21), (0x01095025#32, 0x25), (0x0109502B#32, 0x2B)],
      p.1.toNat / 2 ^ 26 = 0x00 ∧ p.1.toNat % 2 ^ 6 = p.2)
    ∧ (∀ p ∈ [(0x0BFFFFFF#32, 0x02), (0x0C000000#32, 0x03), (0x1520FFFE#32, 0x05), (0x21080001#32, 0x08), (0x27FFFFFF#32, 0x09),
        (0x30000000#32, 0x0C), (0x37FFFFFF#32, 0x0D), (0x3FFF1234#32, 0x0F), (0x8C09FFFF#32, 0x23), (0xA0090001#32, 0x28),
        (0xA7FFFFFF#32, 0x29), (0xAC080000#32, 0x2B)], p.1.toNat / 2 ^ 26 = p.2)
    ∧ (0x40886FFF#32).toNat / 2 ^ 26 = 0x10 ∧ (0x40886FFF#32).toNat / 2 ^ 21 % 2 ^ 5 = 0x04
    ∧ (Each [0x00000001#32, 0x00000009#32, 0x00000020#32, 0x03FFFFFF#32] fun w =>
        w.toNat / 2 ^ 26 = 0x00 ∧ w.toNat % 2 ^ 6 ∉ [0x00, 0x08, 0x21, 0x25, 0x2B])
    ∧ (Each [0x40000000#32, 0x40600000#32, 0x40A00000#32, 0x43FFFFFF#32] fun w =>
        w.toNat / 2 ^ 26 = 0x10 ∧ w.toNat / 2 ^ 21 % 2 ^ 5 ≠ 0x04)
    ∧ Each [0x04000000#32, 0x10000001#32, 0xFC000000#32, 0xFFFFFFFF#32] fun w =>
        w.toNat / 2 ^ 26 ∉ [0x00, 0x02, 0x03, 0x05, 0x08, 0x09, 0x0C, 0x0D, 0x0F, 0x10, 0x23, 0x28, 0x29, 0x2B] := by decide

theorem witness_UnusedBitsDoNotMatter : decodeWord 0x03E95100#32 = .ok (.sll 10 9 4)
    ∧ 0x00095100#32 &&& (Instr.sll 10 9 4).row.used = 0x03E95100#32 &&& (Instr.sll 10 9 4).row.used := by decide

theorem witness_OneTableRowPerWord : decodeWord 0x3C081234#32 = .ok (.lui 8 0x1234) ∧ (Instr.lui 8 0x1234).row ∈ opcodeTable
    ∧ (Instr.sw 0 0 0).row ∈ opcodeTable := by decide

/-! ### Witnesses: one instruction -/

/-- The last sums in range and the first out of it, at both ends. -/
theorem witness_AddiChecksOverflow :
    (Each [(0x7FFF8000#32, 0x7FFF#16), (0x80000000#32, 0x0000#16), (0x80008000#32, 0x8000#16)] fun p =>
      -2 ^ 31 ≤ (State.x (machine [(8, p.1)] 0) 8).toInt + p.2.toInt ∧ (State.x (machine [(8, p.1)] 0) 8).toInt + p.2.toInt ≤ 2 ^ 31 - 1)
    ∧ Each [(0x7FFF8001#32, 0x7FFF#16), (0x80000000#32, 0xFFFF#16)] fun p =>
      ¬(-2 ^ 31 ≤ (State.x (machine [(8, p.1)] 0) 8).toInt + p.2.toInt
        ∧ (State.x (machine [(8, p.1)] 0) 8).toInt + p.2.toInt ≤ 2 ^ 31 - 1) := by decide

theorem witness_SltuComparesUnsigned :
    (State.x (machine [(8, 0x7FFFFFFF), (9, 0x80000000)] 0) 8).toNat < (State.x (machine [(8, 0x7FFFFFFF), (9, 0x80000000)] 0) 9).toNat
    ∧ (State.x (machine [(8, 5), (9, 5)] 0) 9).toNat ≤ (State.x (machine [(8, 5), (9, 5)] 0) 8).toNat := by decide

theorem witness_JumpRegisterIgnoresAlignment : ∃ (s b : State) (i : Instr), s.Running ∧ s.pc.toNat % 4 ≠ 0
    ∧ decodeWord s.ni = .ok i ∧ exec i s.beginCycle = .next b :=
  ⟨machine [] 0x24090007#32 0xBFC00102#32, _, .addiu 9 0 7, rfl, by decide, by decide, rfl⟩

theorem witness_BneBranchesWhenDifferent : State.x (machine [(9, 2)] 0) 9 ≠ State.x (machine [(9, 2)] 0) 0
    ∧ State.x (machine [(9, 2)] 0) 9 = State.x (machine [(9, 2)] 0) 9 := by decide

/-! ### Witnesses: data accesses. The base is register 8 and the displacement 0, so the address is register 8's value. -/

/-- Word-aligned addresses at both ends of every region, through several segments. -/
def regionEdges : List (Word × RegionTag) :=
  [(0x00000000, .main), (0x007FFFFC, .main), (0x80000000, .main), (0xA07FFFFC, .main), (0x1F000000, .expansion1),
   (0x1F7FFFFC, .expansion1), (0x00800000, .scratchpad), (0x1EFFFFFC, .scratchpad), (0x1F800000, .scratchpad),
   (0x1F800FFC, .scratchpad), (0x1F801000, .hardwareRegs), (0x1F802FFC, .hardwareRegs), (0x1FC00000, .bios), (0xBFC7FFFC, .bios),
   (0xFFFE0000, .io), (0xFFFE0FFC, .io), (0x1F803000, .unmapped), (0x1FBFFFFC, .unmapped), (0x1FC80000, .unmapped),
   (0xFFFDFFFC, .unmapped), (0xFFFE1000, .unmapped), (0xFFFFFFFC, .unmapped)]

/-- The hypotheses of an aligned access at an edge, with the gate open. -/
def OpenAligned (p : Word × RegionTag) : Prop :=
  (machine [(8, p.1)] 0).isolated = false ∧ (State.ea (machine [(8, p.1)] 0) 8 0).toNat % 4 = 0
    ∧ classify (translateVa (State.ea (machine [(8, p.1)] 0) 8 0)) = p.2

theorem witness_LwStagesPendingLoad : (∀ p ∈ regionEdges, OpenAligned p)
    ∧ Each [0x00000001#32, 0x00000002#32, 0xFFFFFFFF#32] fun va =>
      (machine [(8, va)] 0).isolated = false ∧ (State.ea (machine [(8, va)] 0) 8 0).toNat % 4 ≠ 0 := by
  unfold OpenAligned; decide

theorem witness_SbChangesNoByte : ∀ p ∈ (0x007FFFFF#32, RegionTag.main) :: (0x1FC7FFFF#32, .bios) :: regionEdges,
    (machine [(8, p.1)] 0).isolated = false ∧ classify (translateVa (State.ea (machine [(8, p.1)] 0) 8 0)) = p.2 := by decide

theorem witness_ShChangesNoByte :
    (∀ p ∈ [(0x00000001#32, RegionTag.main), (0x1F801001#32, .hardwareRegs), (0x1FC7FFFF#32, .bios), (0x1F000003#32, .expansion1)],
      (machine [(8, p.1)] 0).isolated = false ∧ (State.ea (machine [(8, p.1)] 0) 8 0).toNat % 2 ≠ 0
        ∧ classify (translateVa (State.ea (machine [(8, p.1)] 0) 8 0)) = p.2)
    ∧ ∀ p ∈ (0x007FFFFE#32, RegionTag.main) :: regionEdges,
      (machine [(8, p.1)] 0).isolated = false ∧ (State.ea (machine [(8, p.1)] 0) 8 0).toNat % 2 = 0
        ∧ classify (translateVa (State.ea (machine [(8, p.1)] 0) 8 0)) = p.2 := by decide

theorem witness_SwWritesFourBytes : (∀ p ∈ regionEdges.take 4, OpenAligned p ∧ p.2 = .main)
    ∧ (machine [] 0).ram.wf = true ∧ (machine [] 0 0 [(0, 0x78), (0x1FFFFF, 0x12)]).ram.wf = true := by
  unfold OpenAligned; decide

theorem witness_SwOutsideMain : (∀ p ∈ regionEdges.drop 4, OpenAligned p ∧ p.2 ≠ .main)
    ∧ ∀ p ∈ [(0x00000001#32, RegionTag.main), (0x007FFFFE#32, .main), (0x1F801002#32, .hardwareRegs)],
      (machine [(8, p.1)] 0).isolated = false ∧ (State.ea (machine [(8, p.1)] 0) 8 0).toNat % 4 ≠ 0
        ∧ classify (translateVa (State.ea (machine [(8, p.1)] 0) 8 0)) = p.2 := by
  unfold OpenAligned; decide

theorem witness_IsolationSkipsEveryAccess : (isolated [] 0).isolated = true ∧ (machine [] 0).isolated = false := by decide

/-- Word-aligned for all three widths, and the alignments that only SB, or only SB and SH, meet. -/
theorem witness_DeviceAndFirmwareStoresInert :
    (∀ p ∈ regionEdges.filter fun p => p.2 == .hardwareRegs || p.2 == .io || p.2 == .bios,
      OpenAligned p ∧ p.2 ∈ [RegionTag.hardwareRegs, .io, .bios])
    ∧ ∀ p ∈ [(0x1F802FFF#32, RegionTag.hardwareRegs, 1), (0x1FC7FFFE#32, .bios, 2), (0xFFFE0FFE#32, .io, 2)],
      (machine [(8, p.1)] 0).isolated = false ∧ classify (translateVa (State.ea (machine [(8, p.1)] 0) 8 0)) = p.2.1
        ∧ (State.ea (machine [(8, p.1)] 0) 8 0).toNat % p.2.2 = 0 := by
  unfold OpenAligned; decide

theorem witness_EffectiveAddressAndData : decodeWord 0x8D28FFFC#32 = .ok (.lw 8 9 0xFFFC) ∧ decodeWord 0xA1280001#32 = .ok (.sb 8 9 1)
    ∧ decodeWord 0xA5280002#32 = .ok (.sh 8 9 2) ∧ decodeWord 0xAD280004#32 = .ok (.sw 8 9 4) := by decide

theorem witness_MoveToStatusRegister : (12#5 : Reg) = 12#5 ∧ Each [0#5, 11#5, 13#5, 16#5, 28#5, 31#5] fun rd => rd ≠ 12#5 := by decide

theorem witness_TranslateBySegment : (Each [0#32, 0x7FFFFFFF#32] fun va => va.toNat < 0x80000000)
    ∧ (Each [0x80000000#32, 0x9FFFFFFF#32] fun va => 0x80000000 ≤ va.toNat ∧ va.toNat < 0xA0000000)
    ∧ (Each [0xA0000000#32, 0xBFFFFFFF#32] fun va => 0xA0000000 ≤ va.toNat ∧ va.toNat < 0xC0000000)
    ∧ Each [0xC0000000#32, 0xFFFFFFFF#32] fun va => 0xC0000000 ≤ va.toNat := by decide

theorem witness_MirrorsAndAliases :
    (∀ o ∈ [0, 0x1FFFFC], ∀ k ∈ [0, 3], o < 0x200000 ∧ o % 4 = 0 ∧ k < 4 ∧ 0xA0000000 ∈ [0, 0x80000000, 0xA0000000])
    ∧ ∀ o ∈ [0, 0x7FFFC], o < 0x80000 ∧ o % 4 = 0 ∧ 0xBFC00000 ∈ [0x1FC00000, 0x9FC00000, 0xBFC00000] := by decide

/-- The three clauses: the stored word through another mirror, another RAM word, and a word outside Main. -/
theorem witness_ReadGivesLastWrite :
    (∃ t, exec (.sw 9 8 0) (machine [(8, 0xA0200000), (9, 0x5A)] 0) = .next t)
    ∧ OpenAligned (0xA0200000, .main) ∧ (machine [(8, 0xA0200000), (9, 0x5A)] 0).ram.wf = true
    ∧ (Each [0#32, 0x80600000#32] fun va => va.toNat % 4 = 0 ∧ classify (translateVa va) = .main
        ∧ (translateVa va).toNat % 0x200000 = (translateVa 0xA0200000#32).toNat % 0x200000)
    ∧ (Each [4#32, 0x801FFFFC#32] fun va => va.toNat % 4 = 0 ∧ classify (translateVa va) = .main
        ∧ (translateVa va).toNat % 0x200000 ≠ (translateVa 0xA0200000#32).toNat % 0x200000)
    ∧ Each [0x00800000#32, 0xBFC00000#32] fun va => va.toNat % 4 = 0 ∧ classify (translateVa va) ≠ .main := by
  unfold OpenAligned; exact ⟨⟨_, rfl⟩, by decide, by decide, by decide, by decide, by decide⟩

/-! ### Witnesses: the cycle -/

theorem witness_StepRunsLatchedInstruction :
    (machine [] 0x3C081234#32).Running ∧ decodeWord (machine [] 0x3C081234#32).ni = .ok (.lui 8 0x1234)
    ∧ (machine [] 0x0000000C#32).Running ∧ ∀ i, decodeWord (machine [] 0x0000000C#32).ni ≠ .ok i :=
  ⟨rfl, by decide, rfl, no_instr (r := .special 0x0C) (by decide)⟩

/-- The four clauses: Main, BIOS, a misaligned program counter, and one outside both. -/
theorem witness_FetchFillsLatch :
    (∀ p ∈ [(0#32, RegionTag.main), (0x807FFFFC#32, .main), (0xBFC00000#32, .bios), (0x1FC7FFFC#32, .bios)],
      completes (machine [] 0 p.1) = true ∧ p.1.toNat % 4 = 0 ∧ classify (translateVa p.1) = p.2)
    ∧ (Each [0xBFC00102#32, 3#32] fun pc => completes (machine [] 0 pc) = true ∧ pc.toNat % 4 ≠ 0)
    ∧ Each [0x00800000#32, 0xBFC80000#32] fun pc => completes (machine [] 0 pc) = true ∧ pc.toNat % 4 = 0
      ∧ classify (translateVa pc) ≠ .main ∧ classify (translateVa pc) ≠ .bios := by decide

theorem witness_UnimplementedWordHalts : ∃ s : State, s.Running ∧ ∀ i, decodeWord s.ni ≠ .ok i :=
  ⟨machine [] 0xFC000000#32, rfl, no_instr (r := .opcode 0x3F) (by decide)⟩

theorem witness_OnlyAHaltedEngineFaults : ∃ s : State, s.halted = true ∧ step s = .fault (.halted []) :=
  ⟨{ State.reset with halted := true }, rfl, rfl⟩

theorem witness_EveryCycleCompletes : State.reset.Running := rfl

theorem witness_HaltedExactlyWhenRaised : (∃ s t, step s = .next t ∧ t.halted = true) ∧ (∃ s t, step s = .next t ∧ t.halted = false)
    ∧ ∃ (i : Instr) (s t : State), s.halted = true ∧ exec i s = .next t :=
  ⟨⟨machine [] 0xFC000000#32, _, step_after (by decide), by decide⟩, ⟨machine [] 0#32, _, step_after (by decide), by decide⟩,
    ⟨.j 0, { State.reset with halted := true }, _, rfl, rfl⟩⟩

/-- Both endings: an ADDI that overflows, and an LW that fails. -/
theorem witness_HaltIsPrecise :
    (∃ s t w, readWord s s.pc = .ok w ∧ step s = .next t ∧ t.halted = true ∧ t.pl = ⟨0#5, 0#32⟩)
    ∧ ∃ s t w, readWord s s.pc = .ok w ∧ step s = .next t ∧ t.halted = true ∧ t.pl = ⟨9#5, 0#32⟩ :=
  ⟨⟨machine [(8, 0x7FFFFFFF)] 0x21080001#32, _, 0, by decide, step_after (by decide), by decide, by decide⟩,
    ⟨machine [] 0x8C090002#32, _, 0, by decide, step_after (by decide), by decide, by decide⟩⟩

theorem witness_InvKeptByStep : ∃ s t : State, s.Inv ∧ step s = .next t :=
  ⟨machine [(8, 0x1234)] 0xAC080000#32, _, by decide, step_after (by decide)⟩

theorem witness_InvHoldsAtConstruction : Memory.wf [(0, 0x78), (0x1FFFFF, 0x12)] = true
    ∧ Memory.within Config.ramSize [(0, 0x78), (0x1FFFFF, 0x12)] = true := by decide

theorem witness_RegisterZeroIsHardwired : (31#5 : Reg) ≠ 0#5 ∧ (∃ s t, exec (.lui 0 0xFFFF) s = .next t)
    ∧ ∃ s t, step s = .next t ∧ s.ni = 0x3C00FFFF#32 :=
  ⟨by decide, ⟨State.reset, _, rfl⟩, ⟨machine [] 0x3C00FFFF#32, _, step_after (by decide), rfl⟩⟩

theorem witness_OnlyLwSetsPendingLoad : ∃ s t, step s = .next t ∧ t.pl ≠ ⟨0#5, 0#32⟩ :=
  ⟨machine [] 0x8C090000#32, _, step_after (by decide), by decide⟩

theorem witness_OnlySwChangesMemory : ∃ s t, step s = .next t ∧ t.ram ≠ s.ram :=
  ⟨machine [(8, 0x12345678)] 0xAC080000#32, _, step_after (by decide), by decide⟩

theorem witness_OnlyMtc0ChangesCop0 : ∃ s t, step s = .next t ∧ t.cop0[(12 : Fin 16)] ≠ s.cop0[(12 : Fin 16)] :=
  ⟨machine [(8, 0x10000)] 0x40886000#32, _, step_after (by decide), by decide⟩

theorem witness_ProgramCounterAdvancesOrTransfers :
    (∃ s t, step s = .next t ∧ decodeWord s.ni = .ok (.j 0x3F00010)) ∧ ∃ s t, step s = .next t ∧ ∀ i, decodeWord s.ni ≠ .ok i :=
  ⟨⟨machine [] 0x0BF00010#32, _, step_after (by decide), by decide⟩,
    ⟨machine [] 0xFC000000#32, _, step_after (by decide), no_instr (r := .opcode 0x3F) (by decide)⟩⟩

/-- A jump at 0x0 with an ADDIU in its delay slot. -/
def jumpThen : State := machine [] 0x08000040#32 4#32 [(4, 0x07), (6, 0x09), (7, 0x24)]

theorem witness_BranchDelayContract : jumpThen.Running ∧ decodeWord jumpThen.ni = .ok (.j 0x40)
    ∧ transferTarget (.j 0x40) jumpThen.beginCycle = some 0x100#32 ∧ step jumpThen = .next (after jumpThen)
    ∧ step (after jumpThen) = .next (after (after jumpThen)) ∧ decodeWord (after jumpThen).ni = .ok (.addiu 9 0 7)
    ∧ readWord jumpThen jumpThen.pc = .ok 0x24090007#32 ∧ readWord (after jumpThen) 0x100#32 = .ok 0#32 :=
  ⟨rfl, by decide, by decide, step_after (by decide), step_after (by decide), by decide, by decide, by decide⟩

/-- A jump at 0x0 with a JAL, or a taken BNE, in its delay slot. -/
def jumpThenJal : State := machine [] 0x08000040#32 4#32 [(4, 0x10), (7, 0x0C)]
def jumpThenBne : State := machine [(9, 1)] 0x08000040#32 4#32 [(4, 0xFE), (5, 0xFF), (6, 0x20), (7, 0x15)]

theorem witness_TransferInDelaySlot :
    (jumpThenJal.Running ∧ decodeWord jumpThenJal.ni = .ok (.j 0x40)
      ∧ transferTarget (.j 0x40) jumpThenJal.beginCycle = some 0x100#32 ∧ step jumpThenJal = .next (after jumpThenJal)
      ∧ step (after jumpThenJal) = .next (after (after jumpThenJal)) ∧ decodeWord (after jumpThenJal).ni = .ok (.jal 0x10))
    ∧ (jumpThenBne.Running ∧ decodeWord jumpThenBne.ni = .ok (.j 0x40)
      ∧ transferTarget (.j 0x40) jumpThenBne.beginCycle = some 0x100#32 ∧ step jumpThenBne = .next (after jumpThenBne)
      ∧ step (after jumpThenBne) = .next (after (after jumpThenBne)) ∧ decodeWord (after jumpThenBne).ni = .ok (.bne 9 0 0xFFFE)
      ∧ (after jumpThenBne).x 9 ≠ (after jumpThenBne).x 0) :=
  ⟨⟨rfl, by decide, by decide, step_after (by decide), step_after (by decide), by decide⟩,
    ⟨rfl, by decide, by decide, step_after (by decide), step_after (by decide), by decide, by decide⟩⟩

/-- LW $t1, 0($zero) latched, ADDU $t2, $t1, $zero next: L1-4. -/
def loadThen : State := machine [(9, 0xDEADBEEF)] 0x8C090000#32 4#32
  [(0, 0x78), (1, 0x56), (2, 0x34), (3, 0x12), (4, 0x21), (5, 0x50), (6, 0x20), (7, 0x01)]

theorem witness_LoadDelayIsOneInstruction : decodeWord loadThen.ni = .ok (.lw 9 0 0) ∧ (9#5 : Reg) ≠ 0#5
    ∧ loadThen.isolated = false ∧ readWord loadThen (loadThen.ea 0 0) = .ok 0x12345678#32
    ∧ step loadThen = .next (after loadThen) ∧ step (after loadThen) = .next (after (after loadThen))
    ∧ ∀ i, decodeWord (after loadThen).ni = .ok i → destination i ≠ some 9#5 :=
  ⟨by decide, by decide, by decide, by decide, step_after (by decide), step_after (by decide),
    fun i h => by rw [show decodeWord (after loadThen).ni = .ok (.addu 10 9 0) from by decide] at h; cases h; decide⟩

/-- ADDIU $t2, $zero, 5 with a load of $t2 pending: program P4, cycle 13. -/
def loadPending : State := { machine [] 0x240A0005#32 with pl := ⟨10, 0x24090063⟩ }

theorem witness_DelaySlotWriteWins : decodeWord loadPending.ni = .ok (.addiu 10 0 5)
    ∧ destination (.addiu 10 0 5) = some loadPending.pl.idx ∧ step loadPending = .next (after loadPending)
    ∧ (after loadPending).Running := ⟨by decide, by decide, step_after (by decide), (by decide : (after loadPending).halted = false)⟩

/-- JAL latched, ADDU $t2, $ra, $zero in its delay slot. -/
def linkThen : State := machine [] 0x0C000040#32 4#32 [(4, 0x21), (5, 0x50), (6, 0xE0), (7, 0x03)]

theorem witness_LinkIsVisibleInDelaySlot : decodeWord linkThen.ni = .ok (.jal 0x40) ∧ step linkThen = .next (after linkThen)
    ∧ decodeWord (after linkThen).ni = .ok (.addu 10 31 0) ∧ (10#5 : Reg) ≠ 0#5
    ∧ step (after linkThen) = .next (after (after linkThen)) :=
  ⟨by decide, step_after (by decide), by decide, by decide, step_after (by decide)⟩

/-- SW $t0, 8($zero) latched at program counter 4: the next fetch is from 8. -/
def storeThen : State := machine [(8, 0x24090063)] 0xAC080008#32 4#32

theorem witness_StoreIsSeenByTheNextFetch : storeThen.ram.wf = true ∧ decodeWord storeThen.ni = .ok (.sw 8 0 8)
    ∧ storeThen.isolated = false ∧ (storeThen.ea 0 8).toNat % 4 = 0 ∧ classify (translateVa (storeThen.ea 0 8)) = .main
    ∧ step storeThen = .next (after storeThen) ∧ step (after storeThen) = .next (after (after storeThen))
    ∧ (after storeThen).pc.toNat % 4 = 0 ∧ classify (translateVa (after storeThen).pc) = .main
    ∧ (translateVa (after storeThen).pc).toNat % 0x200000 = (translateVa (storeThen.ea 0 8)).toNat % 0x200000 :=
  ⟨by decide, by decide, by decide, by decide, by decide, step_after (by decide), step_after (by decide), by decide, by decide,
    by decide⟩

/-- MTC0 $t0, $12 latched, SW $t1, 0($zero) next. -/
def statusThen (v : Word) : State := machine [(8, v)] 0x40886000#32 4#32 [(6, 0x09), (7, 0xAC)]

theorem witness_StatusGovernsNextAccess : Each [0x00010000#32, 0xFFFEFFFF#32] fun v => decodeWord (statusThen v).ni = .ok (.mtc0 8 12)
    ∧ completes (statusThen v) = true ∧ decodeWord (after (statusThen v)).ni = .ok (.sw 9 0 0)
    ∧ completes (after (statusThen v)) = true ∧ (after (statusThen v)).ram.wf = true
    ∧ ((after (statusThen v)).ea 0 0).toNat % 4 = 0 ∧ classify (translateVa ((after (statusThen v)).ea 0 0)) = .main
    ∧ ((statusThen v).x 8).toNat / 2 ^ 16 % 2 = if v = 0x00010000#32 then 1 else 0 := by decide

/-- A bank that differs in every bit of register 12 but bit 16. -/
theorem witness_OtherStatusBitsAreInert :
    ∃ s t : State, ∃ bank : Vector Word 16, bank ≠ s.cop0 ∧ (bank.get 12).getLsbD 16 = (s.cop0.get 12).getLsbD 16 ∧ step s = .next t :=
  ⟨machine [] 0x8C090000#32, _, Vector.replicate 16 0xFFFEFFFF#32, by decide, by decide, step_after (by decide)⟩

/-! ### Witnesses: construction and assembler -/

theorem witness_StateAfterConstruction : (List.replicate 524288 0#8).length = 524288 ∧ ([] : List Byte).length ≠ 524288 :=
  ⟨List.length_replicate, by decide⟩

theorem witness_FirstCycleFetchesFirmware : (List.replicate 524288 0x24#8).length = 524288 := List.length_replicate

theorem witness_AssembledTransfersReachTarget :
    (machine [] 0 0x80020008#32).pc = 0x80020000#32 + 8#32
    ∧ jumpReaches 0x80020000#32 0x8FFFFFFC#32 = true ∧ jumpReaches 0x80020000#32 0x80000000#32 = true
    ∧ branchReaches 0x80020000#32 0x80000004#32 = true ∧ branchReaches 0x80020000#32 0x80040000#32 = true
    ∧ State.x (machine [(9, 1)] 0) 9 ≠ State.x (machine [(9, 1)] 0) 0 := by decide

theorem witness_ConstantsAreLoaded : (8#5 : Reg) ≠ 0#5 ∧ (machine [(8, 5)] 0).shadow = (machine [(8, 5)] 0).regs := by decide

end Sys2Proof.Tests
end

section
/-! The pending load (10_state R24, R44): what each part of the cycle does to it, and the statement O44. -/

namespace Sys2Proof.Machine

/-- Behind the cache-isolation gate a load leaves the pending load alone; else it stages one for `rt`. -/
theorem State.load_pl (s : State) (rt : Reg) (va : Word) :
    (s.load rt va).pl = if s.isolated then s.pl else ⟨rt, readValue (readWord s va)⟩ := by
  cases h : s.isolated with
  | true => simp [State.load_isolated h]
  | false => simp [State.load_open h]

/-- Every instruction leaves the pending load alone, or is an LW, which may stage one for its own register. -/
theorem exec_pl_cases {i : Instr} {s t : State} (h : exec i s = .next t) :
    t.pl = s.pl ∨ ∃ rt base offset, i = .lw rt base offset ∧ t.pl.idx = rt := by
  cases i with
  | lw rt base offset =>
    cases h
    cases hi : s.isolated with
    | true => exact .inl (by simp [State.load_pl, hi])
    | false => exact .inr ⟨rt, base, offset, rfl, by simp [State.load_pl, hi]⟩
  | addi | bne | mtc0 =>
    left
    simp only [exec, execAddi, execBne, execMtc0] at h
    split at h <;> cases h <;> rfl
  | sb | sh | sw => cases h; exact .inl (State.store_pl ..)
  | lui | ori | andi | addiu | addu | or | sll | sltu | j | jal | jr => cases h; exact .inl rfl

/-- A cycle ends with no pending load, or has executed an LW and left one for that LW's register. -/
theorem step_pl_cases {s t : State} (h : step s = .next t) :
    t.pl = ⟨0#5, 0#32⟩ ∨ ∃ rt base offset, decodeWord s.ni = .ok (.lw rt base offset) ∧ t.pl.idx = rt := by
  obtain ⟨-, ⟨i, b, hd, hb, rfl⟩ | ⟨r, -, rfl⟩⟩ := step_cases h
  · obtain hp | ⟨rt, base, offset, rfl, hp⟩ := exec_pl_cases hb
    · exact .inl hp
    · exact .inr ⟨rt, base, offset, hd, hp⟩
  · exact .inl rfl

/-- The registers an instruction's writes start from: the shadow file with the pending load committed, entry 0 never. -/
theorem State.beginCycle_shadow_get (s : State) (r : Reg) :
    s.beginCycle.shadow[r.toNat]'r.isLt = if r = s.pl.idx ∧ s.pl.idx ≠ 0#5 then s.pl.val else s.shadow[r.toNat]'r.isLt := by
  simp only [State.beginCycle_shadow, RegFile.write_get]

/-- Settles O44: a cycle begins with the commit, which empties the pending load, and only LW's arm of `exec` fills it again. -/
theorem onlyLwSetsPendingLoad : Obligations.OnlyLwSetsPendingLoad := by
  unfold Obligations.OnlyLwSetsPendingLoad
  refine ⟨fun s t => step_pl_cases, fun s => ⟨s.beginCycle_pl, fun r => ?_⟩⟩
  have hidx : (r = s.pl.idx ∧ r ≠ 0#5) ↔ (r = s.pl.idx ∧ s.pl.idx ≠ 0#5) := and_congr_right fun e => by rw [e]
  simp only [s.beginCycle_shadow_get r, hidx]

end Sys2Proof.Machine
end

section
/-! Translation and the accesses that change nothing (20_memory R61, R71 to R73): the statements O30, O27 and O28. -/

namespace Sys2Proof.Machine

/-! ### Translation -/

/-- Settles O30: each range of virtual addresses is a range of the top three bits, which select the clause of
`translateVa_toNat`. -/
theorem translateBySegment : Obligations.TranslateBySegment := by
  unfold Obligations.TranslateBySegment
  intro va
  have key := translateVa_toNat va
  refine ⟨fun hi => BitVec.eq_of_toNat_eq ?kuseg, fun lo hi => ?kseg0, fun lo hi => ?kseg1,
    fun lo => BitVec.eq_of_toNat_eq ?kseg2⟩
  case kuseg => rw [key, if_neg (by omega), if_neg (by omega)]
  case kseg0 => rw [key, if_pos (by omega)]; rfl
  case kseg1 => rw [key, if_neg (by omega), if_pos (by omega)]; rfl
  case kseg2 => rw [key, if_neg (by omega), if_neg (by omega)]

/-! ### States that differ in their reports only -/

theorem sameMachine_withDiags (s : State) (ds : List Diag) : SameMachine s { s with diags := ds } :=
  ⟨rfl, rfl, rfl, rfl, rfl, fun _ => rfl, fun _ => rfl, fun _ => rfl⟩

/-- A diagnostic alone (60_exceptions R196) changes nothing of the machine and is the one event reported. -/
theorem State.emit_reports (s : State) (d : Diag) : SameMachine s (s.emit d) ∧ Reports d s (s.emit d) :=
  ⟨sameMachine_withDiags s _, rfl, rfl⟩

/-! ### Loads and stores as accesses -/

theorem exec_lw (rt base : Reg) (offset : Half) (s : State) :
    exec (.lw rt base offset) s = .next (s.load rt (s.ea base offset)) := rfl

theorem exec_sb (rt base : Reg) (offset : Half) (s : State) :
    exec (.sb rt base offset) s = .next (s.store .byte (s.ea base offset) (s.storeData .byte rt)) := rfl

theorem exec_sh (rt base : Reg) (offset : Half) (s : State) :
    exec (.sh rt base offset) s = .next (s.store .half (s.ea base offset) (s.storeData .half rt)) := rfl

theorem exec_sw (rt base : Reg) (offset : Half) (s : State) :
    exec (.sw rt base offset) s = .next (s.store .word (s.ea base offset) (s.storeData .word rt)) := rfl

/-! ### Cache isolation -/

/-- The gate as arithmetic (20_memory R73). -/
theorem State.isolated_iff (s : State) : s.isolated = true ↔ s.cop0[12].toNat / 2 ^ 16 % 2 = 1 := by
  rw [State.isolated, State.sr, ← BitVec.testBit_toNat, Nat.testBit_eq_decide_div_mod_eq, decide_eq_true_iff]

/-- Settles O27: behind the closed gate every access is one diagnostic. -/
theorem isolationSkipsEveryAccess : Obligations.IsolationSkipsEveryAccess := by
  unfold Obligations.IsolationSkipsEveryAccess
  refine ⟨State.isolated_iff, fun rt base offset s hs => ?_⟩
  rw [exec_lw, exec_sb, exec_sh, exec_sw, State.load_isolated hs]
  simp only [State.store_isolated hs]
  exact ⟨⟨_, rfl, s.emit_reports _⟩, ⟨_, rfl, s.emit_reports _⟩, ⟨_, rfl, s.emit_reports _⟩, ⟨_, rfl, s.emit_reports _⟩⟩

/-! ### Stores that change no byte -/

/-- The alignment a store needs is that its width divides the address (20_memory R77). -/
theorem misaligned_eq_false_iff (w : Width) (va : Word) : misaligned w va = false ↔ va.toNat % w.bytes = 0 := by
  cases w with
  | byte => simp [misaligned, Width.bytes, Nat.mod_one]
  | half => simp [misaligned, Width.bytes, halfAligned_iff]
  | word => simp [misaligned, Width.bytes, aligned_iff]

theorem State.write_device (s : State) {w : Width} {va : Word} (v : Word) (ha : misaligned w va = false)
    (hc : classify (translateVa va) = .hardwareRegs ∨ classify (translateVa va) = .io) :
    s.write w va v = s.storeDevice w va v := by
  unfold State.write
  rw [if_neg (by simp [ha])]
  obtain hc | hc := hc <;> rw [hc]

theorem State.write_bios (s : State) {w : Width} {va : Word} (v : Word) (ha : misaligned w va = false)
    (hc : classify (translateVa va) = .bios) : s.write w va v = s.emit (.firmwareWriteRejected va w v) := by
  unfold State.write
  rw [if_neg (by simp [ha]), hc]

/-- An aligned store to HardwareRegs, IO or BIOS only reports, and to BIOS it does report (20_memory R71, R72). -/
theorem State.store_inert {s : State} {w : Width} {va : Word} (v : Word) (hs : s.isolated = false)
    (hc : classify (translateVa va) ∈ [RegionTag.hardwareRegs, .io, .bios]) (ha : va.toNat % w.bytes = 0) :
    SameMachine s (s.store w va v) ∧ (s.store w va v).halted = s.halted
      ∧ (classify (translateVa va) = .bios → (s.store w va v).diags = s.diags ++ [.firmwareWriteRejected va w v]) := by
  have hw := (misaligned_eq_false_iff w va).2 ha
  rw [State.store_open hs]
  by_cases hb : classify (translateVa va) = .bios
  · rw [s.write_bios v hw hb]
    exact ⟨sameMachine_withDiags s _, rfl, fun _ => rfl⟩
  · rw [s.write_device v hw (by simpa [hb] using hc)]
    exact ⟨sameMachine_withDiags s _, rfl, fun h => absurd h hb⟩

/-- Settles O28: SB, SH and SW are each a store of its width, with the data cut to that width. -/
theorem deviceAndFirmwareStoresInert : Obligations.DeviceAndFirmwareStoresInert := by
  unfold Obligations.DeviceAndFirmwareStoresInert
  intro rt base offset s hs hc
  have inert (w : Width) (ha : (s.ea base offset).toNat % w.bytes = 0) :
      ∃ t, s.store w (s.ea base offset) (s.storeData w rt) = t ∧ SameMachine s t ∧ t.halted = s.halted
        ∧ (classify (translateVa (s.ea base offset)) = .bios →
          ∃ w v, t.diags = s.diags ++ [.firmwareWriteRejected (s.ea base offset) w v]) := by
    obtain ⟨hm, hh, hd⟩ := State.store_inert (s.storeData w rt) hs hc ha
    exact ⟨_, rfl, hm, hh, fun hb => ⟨w, _, hd hb⟩⟩
  simp only [List.forall_mem_cons, exec_sb, exec_sh, exec_sw, Host.Outcome.next.injEq]
  exact ⟨inert .byte, inert .half, inert .word, List.forall_mem_nil _⟩

end Sys2Proof.Machine
end

section
/-! The decoder's fields as numbers (30_encoding R101), and the statement O1. -/

namespace Sys2Proof

/-- A slice as arithmetic: drop the bits below `start`, keep the lowest `len` of what is left. -/
theorem slice_toNat (w : Word) (start len : Nat) : (w.extractLsb' start len).toNat = w.toNat / 2 ^ start % 2 ^ len := by
  rw [BitVec.extractLsb'_toNat, Nat.shiftRight_eq_div_pow]

/-- The opcode is the top slice, so nothing above it needs to be cut off. -/
theorem opcodeField_toNat (w : Word) : (opcodeField w).toNat = w.toNat / 2 ^ 26 := by
  have hlt : w.toNat / 2 ^ 26 < 2 ^ 6 := Nat.div_lt_of_lt_mul w.isLt
  rw [opcodeField, slice_toNat, Nat.mod_eq_of_lt hlt]

theorem rsField_toNat (w : Word) : (rsField w).toNat = w.toNat / 2 ^ 21 % 2 ^ 5 := slice_toNat w 21 5

theorem rtField_toNat (w : Word) : (rtField w).toNat = w.toNat / 2 ^ 16 % 2 ^ 5 := slice_toNat w 16 5

theorem rdField_toNat (w : Word) : (rdField w).toNat = w.toNat / 2 ^ 11 % 2 ^ 5 := slice_toNat w 11 5

theorem shamtField_toNat (w : Word) : (shamtField w).toNat = w.toNat / 2 ^ 6 % 2 ^ 5 := slice_toNat w 6 5

theorem functField_toNat (w : Word) : (functField w).toNat = w.toNat % 2 ^ 6 := by
  rw [functField, slice_toNat, Nat.pow_zero, Nat.div_one]

theorem immField_toNat (w : Word) : (immField w).toNat = w.toNat % 2 ^ 16 := by
  rw [immField, slice_toNat, Nat.pow_zero, Nat.div_one]

theorem targetField_toNat (w : Word) : (targetField w).toNat = w.toNat % 2 ^ 26 := by
  rw [targetField, slice_toNat, Nat.pow_zero, Nat.div_one]

namespace Machine

theorem zext16_toNat (imm : Half) : (zext16 imm).toNat = imm.toNat := BitVec.toNat_setWidth_of_le (by decide)

theorem sext16_toInt (imm : Half) : (sext16 imm).toInt = imm.toInt := BitVec.toInt_signExtend_of_le (by decide)

/-- The signed value of a halfword, by its top bit. -/
theorem half_toInt (h : Half) :
    h.toInt = if h.toNat < 2 ^ 15 then (h.toNat : Int) else (h.toNat : Int) - 2 ^ 16 := by
  have htop : 2 * h.toNat < 2 ^ 16 ↔ h.toNat < 2 ^ 15 := by omega
  simp only [BitVec.toInt_eq_toNat_cond, htop]
  rfl

end Machine

open Machine

/-- Settles O1: each field by its own equation; the two extensions keep the value of the immediate's slice. -/
theorem fieldsAreSlices : Obligations.FieldsAreSlices := by
  unfold Obligations.FieldsAreSlices
  intro w
  have zext : (zext16 (immField w)).toNat = w.toNat % 2 ^ 16 := by rw [zext16_toNat, immField_toNat]
  have sext := (sext16_toInt (immField w)).trans (half_toInt (immField w))
  rw [immField_toNat] at sext
  exact ⟨opcodeField_toNat w, rsField_toNat w, rtField_toNat w, rdField_toNat w, shamtField_toNat w, functField_toNat w,
    zext, sext, targetField_toNat w⟩

end Sys2Proof
end

section
/-! Immediate arithmetic and logic (40_alu_immediate R130 to R133): the statements O8, O9, O10 and O11. -/

namespace Sys2Proof

/-! ### Decoding the I format -/

/-- The fields of a word in the I format (30_encoding R102), as `Instr.FieldsOf` states them. -/
theorem fields_encodeI (op : BitVec 6) (rs rt : Reg) (imm : Half) :
    opcodeField (encodeI op rs rt imm) = op ∧ rt = rtField (encodeI op rs rt imm) ∧ rs = rsField (encodeI op rs rt imm)
      ∧ imm = immField (encodeI op rs rt imm) :=
  ⟨opcodeField_encodeI .., (rtField_encodeI ..).symm, (rsField_encodeI ..).symm, (immField_encodeI ..).symm⟩

/-- LUI does not read the `rs` field, so any value in it decodes alike (30_encoding R111). -/
theorem decodeWord_lui (x rt : Reg) (imm : Half) : decodeWord (encodeI 0x0F#6 x rt imm) = .ok (.lui rt imm) := by
  obtain ⟨hop, hrt, -, himm⟩ := fields_encodeI 0x0F#6 x rt imm
  exact (decodeWord_eq_ok_iff _ _).mpr ⟨hop, hrt, himm⟩

theorem decodeWord_ori (rs rt : Reg) (imm : Half) : decodeWord (encodeI 0x0D#6 rs rt imm) = .ok (.ori rt rs imm) :=
  (decodeWord_eq_ok_iff _ _).mpr (fields_encodeI ..)

theorem decodeWord_andi (rs rt : Reg) (imm : Half) : decodeWord (encodeI 0x0C#6 rs rt imm) = .ok (.andi rt rs imm) :=
  (decodeWord_eq_ok_iff _ _).mpr (fields_encodeI ..)

theorem decodeWord_addiu (rs rt : Reg) (imm : Half) : decodeWord (encodeI 0x09#6 rs rt imm) = .ok (.addiu rt rs imm) :=
  (decodeWord_eq_ok_iff _ _).mpr (fields_encodeI ..)

namespace Machine

/-! ### Execution as one staged write -/

/-- A staged write (10_state R23) is the one effect of an arithmetic instruction. -/
theorem State.stage_stagesOnly (s : State) (d : Reg) (v : Word) : StagesOnly d v s (s.stage d v) :=
  ⟨fun r => RegFile.write_get s.shadow d r v, rfl, rfl, rfl, rfl, fun _ => rfl, fun _ => rfl, fun _ => rfl, rfl, rfl⟩

theorem exec_lui (rt : Reg) (imm : Half) (s : State) : exec (.lui rt imm) s = .next (s.stage rt (upperImm imm)) := rfl

theorem exec_ori (rt rs : Reg) (imm : Half) (s : State) :
    exec (.ori rt rs imm) s = .next (s.stage rt (s.x rs ||| zext16 imm)) := rfl

theorem exec_andi (rt rs : Reg) (imm : Half) (s : State) :
    exec (.andi rt rs imm) s = .next (s.stage rt (s.x rs &&& zext16 imm)) := rfl

theorem exec_addiu (rt rs : Reg) (imm : Half) (s : State) :
    exec (.addiu rt rs imm) s = .next (s.stage rt (s.x rs + sext16 imm)) := rfl

/-! ### The values -/

/-- Sixteen bits moved up by sixteen fit a word, so the shift loses none. -/
theorem upperImm_toNat (imm : Half) : (upperImm imm).toNat = imm.toNat * 2 ^ 16 := by
  have hfit : imm.toNat * 2 ^ 16 < 2 ^ 32 := by omega
  rw [upperImm, BitVec.toNat_shiftLeft, zext16_toNat, Nat.shiftLeft_eq, Nat.mod_eq_of_lt hfit]

/-- Zero extension as bits: the immediate's below 16, zero from there on. -/
theorem zext16_getLsbD (imm : Half) {k : Nat} (hk : k < 32) :
    (zext16 imm).getLsbD k = (decide (k < 16) && imm.getLsbD k) := by
  rw [zext16, BitVec.getLsbD_setWidth]
  by_cases hlow : k < 16
  · simp [hlow, hk]
  · simp [hlow, BitVec.getLsbD_of_ge imm k (Nat.not_lt.mp hlow)]

/-- A sum of words, the second read as signed: its two readings differ by a multiple of 2^32. -/
theorem add_toNat_emod (a b : Word) : ((a + b).toNat : Int) = (a.toNat + b.toInt) % 2 ^ 32 := by
  have hb : b.toInt % 2 ^ 32 = (b.toNat : Int) % 2 ^ 32 := by
    rw [BitVec.toInt_eq_toNat_bmod]
    exact Int.bmod_emod
  rw [BitVec.toNat_add, Int.add_emod, hb, ← Int.add_emod]
  rfl

/-! ### The statements -/

/-- Settles O8: LUI stages its upper immediate, whose value is that of the immediate times 2^16. -/
theorem luiLoadsUpperHalf : Obligations.LuiLoadsUpperHalf := by
  unfold Obligations.LuiLoadsUpperHalf
  exact ⟨decodeWord_lui, fun rt imm s => ⟨_, _, exec_lui rt imm s, upperImm_toNat imm, s.stage_stagesOnly rt _⟩⟩

/-- Settles O9: ORI stages a disjunction, whose bits are those of `x[rs]` and of the zero-extended immediate. -/
theorem oriSetsLowBits : Obligations.OriSetsLowBits := by
  unfold Obligations.OriSetsLowBits
  refine ⟨decodeWord_ori, fun rt rs imm s => ⟨_, _, exec_ori rt rs imm s, fun k hk => ?bits, s.stage_stagesOnly rt _⟩⟩
  case bits => rw [BitVec.getLsbD_or, zext16_getLsbD imm hk]

/-- Settles O10: ANDI stages a conjunction, whose bits are those of `x[rs]` and of the zero-extended immediate. -/
theorem andiKeepsLowBits : Obligations.AndiKeepsLowBits := by
  unfold Obligations.AndiKeepsLowBits
  refine ⟨decodeWord_andi, fun rt rs imm s => ⟨_, _, exec_andi rt rs imm s, fun k hk => ?bits, s.stage_stagesOnly rt _⟩⟩
  case bits => rw [BitVec.getLsbD_and, zext16_getLsbD imm hk]

/-- Settles O11: ADDIU stages a sum of words, and sign extension keeps the immediate's signed value. -/
theorem addiuWraps : Obligations.AddiuWraps := by
  unfold Obligations.AddiuWraps
  refine ⟨decodeWord_addiu, fun rt rs imm s => ⟨_, _, exec_addiu rt rs imm s, ?sum, s.stage_stagesOnly rt _⟩⟩
  case sum => rw [add_toNat_emod, sext16_toInt]

end Machine

end Sys2Proof
end

section
/-! Register arithmetic, logic and shift (41_alu_register R140 to R143): the statements O13, O14, O15 and O16. -/

namespace Sys2Proof

/-! ### Decoding the R format -/

/-- The selector and operand fields of a SPECIAL word (30_encoding R102, R108), as `Instr.FieldsOf` states them for the
instructions of three registers. -/
theorem fields_encodeR_special (rs rt rd : Reg) (shamt : BitVec 5) (funct : BitVec 6) :
    opcodeField (encodeR 0x00#6 rs rt rd shamt funct) = 0x00#6
      ∧ functField (encodeR 0x00#6 rs rt rd shamt funct) = funct
      ∧ rd = rdField (encodeR 0x00#6 rs rt rd shamt funct) ∧ rs = rsField (encodeR 0x00#6 rs rt rd shamt funct)
      ∧ rt = rtField (encodeR 0x00#6 rs rt rd shamt funct) :=
  ⟨opcodeField_encodeR .., functField_encodeR .., (rdField_encodeR ..).symm, (rsField_encodeR ..).symm,
    (rtField_encodeR ..).symm⟩

/-- ADDU, like OR and SLTU, does not read the `shamt` field, so any value in it decodes alike (30_encoding R111). -/
theorem decodeWord_addu (rs rt rd x : Reg) : decodeWord (encodeR 0x00#6 rs rt rd x 0x21#6) = .ok (.addu rd rs rt) :=
  (decodeWord_eq_ok_iff _ _).mpr (fields_encodeR_special ..)

theorem decodeWord_or (rs rt rd x : Reg) : decodeWord (encodeR 0x00#6 rs rt rd x 0x25#6) = .ok (.or rd rs rt) :=
  (decodeWord_eq_ok_iff _ _).mpr (fields_encodeR_special ..)

/-- SLL reads the `shamt` field, and not the `rs` field. -/
theorem decodeWord_sll (x rt rd shamt : BitVec 5) :
    decodeWord (encodeR 0x00#6 x rt rd shamt 0x00#6) = .ok (.sll rd rt shamt) := by
  obtain ⟨hop, hfunct, hrd, -, hrt⟩ := fields_encodeR_special x rt rd shamt 0x00#6
  exact (decodeWord_eq_ok_iff _ _).mpr ⟨hop, hfunct, hrd, hrt, (shamtField_encodeR ..).symm⟩

theorem decodeWord_sltu (rs rt rd x : Reg) : decodeWord (encodeR 0x00#6 rs rt rd x 0x2B#6) = .ok (.sltu rd rs rt) :=
  (decodeWord_eq_ok_iff _ _).mpr (fields_encodeR_special ..)

namespace Machine

/-! ### Execution as one staged write -/

theorem exec_addu (rd rs rt : Reg) (s : State) : exec (.addu rd rs rt) s = .next (s.stage rd (s.x rs + s.x rt)) := rfl

theorem exec_or (rd rs rt : Reg) (s : State) : exec (.or rd rs rt) s = .next (s.stage rd (s.x rs ||| s.x rt)) := rfl

theorem exec_sll (rd rt : Reg) (shamt : BitVec 5) (s : State) :
    exec (.sll rd rt shamt) s = .next (s.stage rd (s.x rt <<< shamt.toNat)) := rfl

theorem exec_sltu (rd rs rt : Reg) (s : State) :
    exec (.sltu rd rs rt) s = .next (s.stage rd (lessUnsigned (s.x rs) (s.x rt))) := rfl

/-! ### The comparison -/

theorem lessUnsigned_of_lt {a b : Word} (h : a.toNat < b.toNat) : lessUnsigned a b = 1#32 := if_pos h

theorem lessUnsigned_of_le {a b : Word} (h : b.toNat ≤ a.toNat) : lessUnsigned a b = 0#32 := if_neg (Nat.not_lt.mpr h)

/-! ### The statements -/

/-- Settles O13: ADDU stages a sum of words, which wraps at 2^32. -/
theorem adduWraps : Obligations.AdduWraps := by
  unfold Obligations.AdduWraps
  exact ⟨decodeWord_addu, fun rd rs rt s => ⟨_, _, exec_addu rd rs rt s, BitVec.toNat_add .., s.stage_stagesOnly rd _⟩⟩

/-- Settles O14: OR stages a disjunction, whose bits are those of `x[rs]` and of `x[rt]`. -/
theorem orJoinsBits : Obligations.OrJoinsBits := by
  unfold Obligations.OrJoinsBits
  exact ⟨decodeWord_or, fun rd rs rt s =>
    ⟨_, _, exec_or rd rs rt s, fun _ _ => BitVec.getLsbD_or, s.stage_stagesOnly rd _⟩⟩

/-- Settles O15: SLL stages a shifted word, and the shift is a multiplication. -/
theorem sllMultipliesByPower : Obligations.SllMultipliesByPower := by
  unfold Obligations.SllMultipliesByPower
  refine ⟨decodeWord_sll, fun rd rt shamt s =>
    ⟨_, _, exec_sll rd rt shamt s, ?product, s.stage_stagesOnly rd _⟩⟩
  case product => rw [BitVec.toNat_shiftLeft, Nat.shiftLeft_eq]

/-- Settles O16: SLTU stages the comparison's value, 1 below and 0 from equality on. -/
theorem sltuComparesUnsigned : Obligations.SltuComparesUnsigned := by
  unfold Obligations.SltuComparesUnsigned
  refine ⟨decodeWord_sltu, fun rd rs rt s =>
    ⟨_, _, exec_sltu rd rs rt s, fun hlt => ?below, fun hle => ?notBelow, s.stage_stagesOnly rd _⟩⟩
  case below => rw [lessUnsigned_of_lt hlt]; rfl
  case notBelow => rw [lessUnsigned_of_le hle]; rfl

end Machine

end Sys2Proof
end

section
/-! Conditional branches (42_control_transfer R153): the statement O20. -/

namespace Sys2Proof

theorem decodeWord_bne (rs rt : Reg) (offset : Half) : decodeWord (encodeI 0x05#6 rs rt offset) = .ok (.bne rs rt offset) := by
  obtain ⟨hop, hrt, hrs, himm⟩ := fields_encodeI 0x05#6 rs rt offset
  exact (decodeWord_eq_ok_iff _ _).mpr ⟨hop, hrs, hrt, himm⟩

namespace Machine

/-! ### Execution as one jump or as nothing -/

/-- An overwritten program counter (00_scope R12) is the one effect of a transfer without a link. -/
theorem State.jump_jumpsOnly (s : State) (target : Word) : JumpsOnly target s (s.jump target) :=
  ⟨rfl, rfl, rfl, rfl, rfl, fun _ => rfl, fun _ => rfl, fun _ => rfl, rfl, rfl⟩

theorem exec_bne_of_ne {rs rt : Reg} (offset : Half) {s : State} (h : s.x rs ≠ s.x rt) :
    exec (.bne rs rt offset) s = .next (s.jump (branchTarget s.pc offset)) := if_pos h

theorem exec_bne_of_eq {rs rt : Reg} (offset : Half) {s : State} (h : s.x rs = s.x rt) :
    exec (.bne rs rt offset) s = .next s := if_neg (not_not_intro h)

/-! ### The target -/

/-- The scaled displacement less a word lies far inside the signed range, so neither shift nor subtraction wraps. -/
theorem branchDisplacement_toInt (offset : Half) : (sext16 offset <<< 2 - 4#32).toInt = 4 * offset.toInt - 4 := by
  have hlow : -2 ^ 15 ≤ offset.toInt := BitVec.le_toInt offset
  have hhigh : offset.toInt < 2 ^ 15 := BitVec.toInt_lt
  have hscale : (sext16 offset <<< 2).toInt = (4 * offset.toInt).bmod (2 ^ 32) := by
    rw [BitVec.shiftLeft_eq_mul_twoPow, BitVec.toInt_mul, sext16_toInt, Int.mul_comm]
    rfl
  have hword : (4#32).toInt = 4 := rfl
  rw [BitVec.toInt_sub, hscale, hword, Int.bmod_sub_bmod]
  exact Int.bmod_eq_of_le (by omega) (by omega)

/-- The branch target as a sum modulo 2^32 (42_control_transfer R153). -/
theorem branchTarget_toNat (pc : Word) (offset : Half) :
    ((branchTarget pc offset).toNat : Int) = (pc.toNat + 4 * offset.toInt - 4) % 2 ^ 32 := by
  rw [branchTarget, add_sub_assoc, add_toNat_emod, branchDisplacement_toInt, Int.add_sub_assoc]

/-- Settles O20: BNE by its condition; where it holds, one jump to the branch target. -/
theorem bneBranchesWhenDifferent : Obligations.BneBranchesWhenDifferent := by
  unfold Obligations.BneBranchesWhenDifferent
  exact ⟨decodeWord_bne, fun rs rt offset s =>
    ⟨fun hne => ⟨_, _, exec_bne_of_ne offset hne, branchTarget_toNat s.pc offset, s.jump_jumpsOnly _⟩,
      exec_bne_of_eq offset⟩⟩

end Machine

end Sys2Proof
end

section
/-! Decoding (30_encoding R100 to R113): each instruction from its word, each word from its fields, and the statements O2 to O7. -/

namespace Sys2Proof

open Machine

/-! ### Words as numbers -/

/-- Joined words as arithmetic: the high part counts multiples of the low part's range. -/
theorem append_toNat {m n : Nat} (x : BitVec m) (y : BitVec n) : (x ++ y).toNat = x.toNat * 2 ^ n + y.toNat := by
  rw [BitVec.toNat_append, ← Nat.shiftLeft_add_eq_or_of_lt y.isLt, Nat.shiftLeft_eq]

theorem wordOfBytes_toNat (b0 b1 b2 b3 : Byte) :
    (wordOfBytes b0 b1 b2 b3).toNat = b0.toNat + 2 ^ 8 * b1.toNat + 2 ^ 16 * b2.toNat + 2 ^ 24 * b3.toNat := by
  simp only [wordOfBytes, append_toNat]
  omega

/-- Four bytes decode as the word they compose, and the bytes after them are left (R100). -/
theorem decodeBytes_four (b0 b1 b2 b3 : Byte) (rest : List Byte) :
    decodeBytes (b0 :: b1 :: b2 :: b3 :: rest) = (decodeWord (wordOfBytes b0 b1 b2 b3)).map (·, rest) := by
  rw [decodeBytes]
  cases decodeWord (wordOfBytes b0 b1 b2 b3) <;> rfl

/-- Settles O2: the value by `wordOfBytes_toNat`, the two outcomes of decoding by `decodeBytes_four`. -/
theorem bytesDecodeLittleEndian : Obligations.BytesDecodeLittleEndian := by
  unfold Obligations.BytesDecodeLittleEndian
  intro b0 b1 b2 b3 rest
  refine ⟨wordOfBytes_toNat b0 b1 b2 b3, fun i h => ?ok, fun r h => ?error⟩
  case ok => rw [decodeBytes_four, h]; rfl
  case error => rw [decodeBytes_four, h]; rfl

/-! ### An instruction from its word -/

theorem decodeWord_addi (rs rt : Reg) (imm : Half) : decodeWord (encodeI 0x08#6 rs rt imm) = .ok (.addi rt rs imm) :=
  (decodeWord_eq_ok_iff _ _).mpr (fields_encodeI ..)

theorem decodeWord_j (target : BitVec 26) : decodeWord (encodeJ 0x02#6 target) = .ok (.j target) :=
  (decodeWord_eq_ok_iff _ _).mpr ⟨opcodeField_encodeJ .., (targetField_encodeJ ..).symm⟩

theorem decodeWord_jal (target : BitVec 26) : decodeWord (encodeJ 0x03#6 target) = .ok (.jal target) :=
  (decodeWord_eq_ok_iff _ _).mpr ⟨opcodeField_encodeJ .., (targetField_encodeJ ..).symm⟩

/-- JR reads only `rs`, so any values in the other operand fields decode alike (R111). -/
theorem decodeWord_jr (rs x y z : Reg) : decodeWord (encodeR 0x00#6 rs x y z 0x08#6) = .ok (.jr rs) := by
  obtain ⟨hop, hfunct, -, hrs, -⟩ := fields_encodeR_special rs x y z 0x08#6
  exact (decodeWord_eq_ok_iff _ _).mpr ⟨hop, hfunct, hrs⟩

theorem decodeWord_lw (base rt : Reg) (offset : Half) : decodeWord (encodeI 0x23#6 base rt offset) = .ok (.lw rt base offset) :=
  (decodeWord_eq_ok_iff _ _).mpr (fields_encodeI ..)

theorem decodeWord_sb (base rt : Reg) (offset : Half) : decodeWord (encodeI 0x28#6 base rt offset) = .ok (.sb rt base offset) :=
  (decodeWord_eq_ok_iff _ _).mpr (fields_encodeI ..)

theorem decodeWord_sh (base rt : Reg) (offset : Half) : decodeWord (encodeI 0x29#6 base rt offset) = .ok (.sh rt base offset) :=
  (decodeWord_eq_ok_iff _ _).mpr (fields_encodeI ..)

theorem decodeWord_sw (base rt : Reg) (offset : Half) : decodeWord (encodeI 0x2B#6 base rt offset) = .ok (.sw rt base offset) :=
  (decodeWord_eq_ok_iff _ _).mpr (fields_encodeI ..)

/-- MTC0 reads neither `shamt` nor `funct`, so any values in them decode alike (R111). -/
theorem decodeWord_mtc0 (rt rd : Reg) (shamt : BitVec 5) (funct : BitVec 6) :
    decodeWord (encodeR 0x10#6 0x04#5 rt rd shamt funct) = .ok (.mtc0 rt rd) :=
  (decodeWord_eq_ok_iff _ _).mpr
    ⟨opcodeField_encodeR .., rsField_encodeR .., (rtField_encodeR ..).symm, (rdField_encodeR ..).symm⟩

/-- Every instruction is decoded from its own encoding: the unread fields of each format are at the encoder's zeros. -/
theorem decodeWord_encode (i : Instr) : decodeWord (encode i) = .ok i := by
  cases i with
  | lui rt imm => exact decodeWord_lui 0#5 rt imm
  | ori rt rs imm => exact decodeWord_ori rs rt imm
  | andi rt rs imm => exact decodeWord_andi rs rt imm
  | addiu rt rs imm => exact decodeWord_addiu rs rt imm
  | addi rt rs imm => exact decodeWord_addi rs rt imm
  | addu rd rs rt => exact decodeWord_addu rs rt rd 0#5
  | or rd rs rt => exact decodeWord_or rs rt rd 0#5
  | sll rd rt shamt => exact decodeWord_sll 0#5 rt rd shamt
  | sltu rd rs rt => exact decodeWord_sltu rs rt rd 0#5
  | j target => exact decodeWord_j target
  | jal target => exact decodeWord_jal target
  | jr rs => exact decodeWord_jr rs 0#5 0#5 0#5
  | bne rs rt offset => exact decodeWord_bne rs rt offset
  | lw rt base offset => exact decodeWord_lw base rt offset
  | sb rt base offset => exact decodeWord_sb base rt offset
  | sh rt base offset => exact decodeWord_sh base rt offset
  | sw rt base offset => exact decodeWord_sw base rt offset
  | mtc0 rt rd => exact decodeWord_mtc0 rt rd 0#5 0#6

/-- Settles O4: `decodeWord_encode`, which rests on the fields of each format. -/
theorem decodeEncodeRoundTrip : Obligations.DecodeEncodeRoundTrip := by
  unfold Obligations.DecodeEncodeRoundTrip
  exact decodeWord_encode

/-- Settles O7: closed words, evaluated. -/
theorem sanityWordsDecode : Obligations.SanityWordsDecode := by
  unfold Obligations.SanityWordsDecode
  decide

/-! ### The dispatch by numbers -/

theorem opcodeField_eq_iff (w : Word) (op : BitVec 6) : opcodeField w = op ↔ w.toNat / 2 ^ 26 = op.toNat := by
  rw [← BitVec.toNat_inj, opcodeField_toNat]

theorem functField_eq_iff (w : Word) (funct : BitVec 6) : functField w = funct ↔ w.toNat % 2 ^ 6 = funct.toNat := by
  rw [← BitVec.toNat_inj, functField_toNat]

theorem rsField_eq_iff (w : Word) (rs : Reg) : rsField w = rs ↔ w.toNat / 2 ^ 21 % 2 ^ 5 = rs.toNat := by
  rw [← BitVec.toNat_inj, rsField_toNat]

/-- The selectors of a word that decodes (R106): SPECIAL with a function code of R108, COP0 with the sub-opcode of R109, or
another opcode of R107. -/
theorem selectors_of_decoded {w : Word} {i : Instr} (h : decodeWord w = .ok i) :
    (w.toNat / 2 ^ 26 = 0x00 ∧ w.toNat % 2 ^ 6 ∈ [0x00, 0x08, 0x21, 0x25, 0x2B])
      ∨ (w.toNat / 2 ^ 26 = 0x10 ∧ w.toNat / 2 ^ 21 % 2 ^ 5 = 0x04)
      ∨ w.toNat / 2 ^ 26 ∈ [0x02, 0x03, 0x05, 0x08, 0x09, 0x0C, 0x0D, 0x0F, 0x23, 0x28, 0x29, 0x2B] := by
  rw [decodeWord_eq_ok_iff] at h
  cases i with
  | addu | or | sll | sltu | jr =>
    obtain ⟨hop, hfunct, -⟩ := h
    rw [opcodeField_eq_iff] at hop
    rw [functField_eq_iff] at hfunct
    exact .inl ⟨hop, by rw [hfunct]; decide⟩
  | mtc0 =>
    obtain ⟨hop, hsub, -⟩ := h
    exact .inr (.inl ⟨(opcodeField_eq_iff ..).mp hop, (rsField_eq_iff ..).mp hsub⟩)
  | lui | ori | andi | addiu | addi | j | jal | bne | lw | sb | sh | sw =>
    obtain ⟨hop, -⟩ := h
    rw [opcodeField_eq_iff] at hop
    exact .inr (.inr (by rw [hop]; decide))

/-- A word of an opcode that alone selects an instruction decodes when the operands are its fields. -/
theorem decodeWord_of_opcode {w : Word} {i : Instr} (op : BitVec 6) (hop : w.toNat / 2 ^ 26 = op.toNat)
    (hi : opcodeField w = op → i.FieldsOf w) : decodeWord w = .ok i :=
  (decodeWord_eq_ok_iff w i).mpr (hi ((opcodeField_eq_iff w op).mpr hop))

/-- A SPECIAL word decodes when its function code selects the instruction and the operands are its fields. -/
theorem decodeWord_of_funct {w : Word} {i : Instr} (funct : BitVec 6)
    (hsel : w.toNat / 2 ^ 26 = (0x00#6).toNat ∧ w.toNat % 2 ^ 6 = funct.toNat)
    (hi : opcodeField w = 0x00#6 → functField w = funct → i.FieldsOf w) : decodeWord w = .ok i :=
  decodeWord_of_opcode 0x00#6 hsel.1 fun hop => hi hop ((functField_eq_iff w funct).mpr hsel.2)

/-- Settles O3: the eighteen clauses by the fields of each instruction, the gaps because a decoded word has selectors. -/
theorem dispatchBySelectorFields : Obligations.DispatchBySelectorFields := by
  unfold Obligations.DispatchBySelectorFields
  intro w
  refine ⟨fun h => decodeWord_of_funct 0x00#6 h fun hop hf => ⟨hop, hf, rfl, rfl, rfl⟩,
    fun h => decodeWord_of_funct 0x08#6 h fun hop hf => ⟨hop, hf, rfl⟩,
    fun h => decodeWord_of_funct 0x21#6 h fun hop hf => ⟨hop, hf, rfl, rfl, rfl⟩,
    fun h => decodeWord_of_funct 0x25#6 h fun hop hf => ⟨hop, hf, rfl, rfl, rfl⟩,
    fun h => decodeWord_of_funct 0x2B#6 h fun hop hf => ⟨hop, hf, rfl, rfl, rfl⟩,
    fun h => decodeWord_of_opcode 0x02#6 h fun hop => ⟨hop, rfl⟩,
    fun h => decodeWord_of_opcode 0x03#6 h fun hop => ⟨hop, rfl⟩,
    fun h => decodeWord_of_opcode 0x05#6 h fun hop => ⟨hop, rfl, rfl, rfl⟩,
    fun h => decodeWord_of_opcode 0x08#6 h fun hop => ⟨hop, rfl, rfl, rfl⟩,
    fun h => decodeWord_of_opcode 0x09#6 h fun hop => ⟨hop, rfl, rfl, rfl⟩,
    fun h => decodeWord_of_opcode 0x0C#6 h fun hop => ⟨hop, rfl, rfl, rfl⟩,
    fun h => decodeWord_of_opcode 0x0D#6 h fun hop => ⟨hop, rfl, rfl, rfl⟩,
    fun h => decodeWord_of_opcode 0x0F#6 h fun hop => ⟨hop, rfl, rfl⟩,
    fun h => decodeWord_of_opcode 0x10#6 h.1 fun hop => ⟨hop, (rsField_eq_iff w _).mpr h.2, rfl, rfl⟩,
    fun h => decodeWord_of_opcode 0x23#6 h fun hop => ⟨hop, rfl, rfl, rfl⟩,
    fun h => decodeWord_of_opcode 0x28#6 h fun hop => ⟨hop, rfl, rfl, rfl⟩,
    fun h => decodeWord_of_opcode 0x29#6 h fun hop => ⟨hop, rfl, rfl, rfl⟩,
    fun h => decodeWord_of_opcode 0x2B#6 h fun hop => ⟨hop, rfl, rfl, rfl⟩,
    fun hop hfunct i h => ?special, fun hop hsub i h => ?cop0, fun hop i h => ?opcode⟩
  case special =>
    obtain ⟨-, hfunct'⟩ | ⟨hop', -⟩ | hop' := selectors_of_decoded h
    · exact hfunct hfunct'
    · rw [hop] at hop'; cases hop'
    · rw [hop] at hop'; revert hop'; decide
  case cop0 =>
    obtain ⟨hop', -⟩ | ⟨-, hsub'⟩ | hop' := selectors_of_decoded h
    · rw [hop] at hop'; cases hop'
    · exact hsub hsub'
    · rw [hop] at hop'; revert hop'; decide
  case opcode =>
    obtain ⟨hop', -⟩ | ⟨hop', -⟩ | hop' := selectors_of_decoded h
    · exact hop (by rw [hop']; decide)
    · exact hop (by rw [hop']; decide)
    · exact hop (List.Sublist.subset (by decide) hop')

/-! ### The bits an instruction reads -/

/-- A word is the I format of its own fields (R102). -/
theorem encodeI_fields (w : Word) : encodeI (opcodeField w) (rsField w) (rtField w) (immField w) = w := by
  apply BitVec.eq_of_toNat_eq
  simp only [encodeI, append_toNat, opcodeField_toNat, rsField_toNat, rtField_toNat, immField_toNat]
  omega

/-- A word is the R format of its own fields (R102). -/
theorem encodeR_fields (w : Word) :
    encodeR (opcodeField w) (rsField w) (rtField w) (rdField w) (shamtField w) (functField w) = w := by
  apply BitVec.eq_of_toNat_eq
  simp only [encodeR, append_toNat, opcodeField_toNat, rsField_toNat, rtField_toNat, rdField_toNat, shamtField_toNat,
    functField_toNat]
  omega

/-- A word is the J format of its own fields (R102). -/
theorem encodeJ_fields (w : Word) : encodeJ (opcodeField w) (targetField w) = w := by
  apply BitVec.eq_of_toNat_eq
  simp only [encodeJ, append_toNat, opcodeField_toNat, targetField_toNat]
  omega

/-- A masked word in the I format. -/
theorem and_eq_encodeI (w m : Word) : w &&& m = encodeI (opcodeField w &&& opcodeField m) (rsField w &&& rsField m)
    (rtField w &&& rtField m) (immField w &&& immField m) := by
  obtain ⟨hop, hrs, hrt, -, -, -, himm, -⟩ := fields_and w m
  rw [← encodeI_fields (w &&& m), hop, hrs, hrt, himm]

/-- A masked word in the R format. -/
theorem and_eq_encodeR (w m : Word) : w &&& m = encodeR (opcodeField w &&& opcodeField m) (rsField w &&& rsField m)
    (rtField w &&& rtField m) (rdField w &&& rdField m) (shamtField w &&& shamtField m) (functField w &&& functField m) := by
  obtain ⟨hop, hrs, hrt, hrd, hshamt, hfunct, -⟩ := fields_and w m
  rw [← encodeR_fields (w &&& m), hop, hrs, hrt, hrd, hshamt, hfunct]

theorem and_of_ones {n : Nat} {m : BitVec n} (h : m = BitVec.allOnes n) (x : BitVec n) : x &&& m = x := by
  rw [h, BitVec.and_allOnes]

theorem and_of_zeros {n : Nat} {m : BitVec n} (h : m = 0#n) (x : BitVec n) : x &&& m = 0#n := by
  rw [h, BitVec.and_zero]

/-- The fields an instruction's rule reads lie within its row's used bits, so masking to those keeps them (R111). -/
theorem fieldsOf_and_used (w : Word) (i : Instr) : i.FieldsOf (w &&& i.row.used) ↔ i.FieldsOf w := by
  cases i <;> simp (disch := decide) only [Instr.FieldsOf, Instr.row, fields_and, and_of_ones]

/-- The fields outside an instruction's used bits are those its encoding has at zero, so a word that decodes to it becomes
its encoding when masked (R111). -/
theorem encode_of_fieldsOf {w : Word} {i : Instr} (h : i.FieldsOf w) : encode i = w &&& i.row.used := by
  cases i with
  | lui =>
    obtain ⟨hop, hrt, himm⟩ := h
    simp (disch := decide) only [encode, Instr.row, and_eq_encodeI, hop, hrt, himm, and_of_ones, and_of_zeros]
  | ori | andi | addiu | addi | bne | lw | sb | sh | sw =>
    obtain ⟨hop, hfst, hsnd, himm⟩ := h
    simp (disch := decide) only [encode, Instr.row, and_of_ones, hfst, hsnd, himm, ← hop, encodeI_fields]
  | addu | or | sll | sltu | jr | mtc0 =>
    simp only [Instr.FieldsOf] at h
    simp (disch := decide) only [encode, Instr.row, and_eq_encodeR, h, and_of_ones, and_of_zeros]
  | j | jal =>
    obtain ⟨hop, htarget⟩ := h
    simp (disch := decide) only [encode, Instr.row, and_of_ones, htarget, ← hop, encodeJ_fields]

/-- Settles O5: the word's encoding by `encode_of_fieldsOf`; a word that agrees on the used bits has the same fields. -/
theorem unusedBitsDoNotMatter : Obligations.UnusedBitsDoNotMatter := by
  unfold Obligations.UnusedBitsDoNotMatter
  intro w i h
  have hw : i.FieldsOf w := (decodeWord_eq_ok_iff w i).mp h
  refine ⟨encode_of_fieldsOf hw, fun w' hagree => (decodeWord_eq_ok_iff w' i).mpr ?_⟩
  rwa [← fieldsOf_and_used, hagree, fieldsOf_and_used]

/-! ### The opcode table -/

theorem covers_iff (r : OpcodeRow) (w : Word) : r.covers w = true ↔ w &&& r.mask = r.pattern := beq_iff_eq

theorem row_mem_opcodeTable (i : Instr) : i.row ∈ opcodeTable := by
  cases i <;> simp [opcodeTable, Instr.row]

/-- A row's mask selects only used bits. -/
theorem used_and_mask : ∀ r ∈ opcodeTable, r.used &&& r.mask = r.mask := by decide

/-- An encoding's bits under the mask of its row are the row's pattern (the per-instruction laws). -/
theorem encode_and_mask (i : Instr) : encode i &&& i.row.mask = i.row.pattern := by
  open Laws.EncodePattern in
  cases i with
  | lui rt imm => exact (lui rt imm).1
  | ori rt rs imm => exact (ori rt rs imm).1
  | andi rt rs imm => exact (andi rt rs imm).1
  | addiu rt rs imm => exact (addiu rt rs imm).1
  | addi rt rs imm => exact (addi rt rs imm).1
  | addu rd rs rt => exact (addu rd rs rt).1
  | or rd rs rt => exact (Laws.EncodePattern.or rd rs rt).1
  | sll rd rt shamt => exact (sll rd rt shamt).1
  | sltu rd rs rt => exact (sltu rd rs rt).1
  | j target => exact (j target).1
  | jal target => exact (jal target).1
  | jr rs => exact (jr rs).1
  | bne rs rt offset => exact (bne rs rt offset).1
  | lw rt base offset => exact (lw rt base offset).1
  | sb rt base offset => exact (sb rt base offset).1
  | sh rt base offset => exact (sh rt base offset).1
  | sw rt base offset => exact (sw rt base offset).1
  | mtc0 rt rd => exact (mtc0 rt rd).1

/-- A decoded word is covered by its instruction's row. -/
theorem row_covers_of_decoded {w : Word} {i : Instr} (h : decodeWord w = .ok i) : i.row.covers w = true := by
  have hencode := encode_of_fieldsOf ((decodeWord_eq_ok_iff w i).mp h)
  rw [covers_iff, ← encode_and_mask, hencode, BitVec.and_assoc, used_and_mask i.row (row_mem_opcodeTable i)]

/-- Rows that cover one word agree on the bits both check. -/
theorem overlaps_of_covers {r q : OpcodeRow} {w : Word} (hr : r.covers w = true) (hq : q.covers w = true) :
    r.overlaps q = true := by
  rw [covers_iff] at hr hq
  rw [OpcodeRow.overlaps, beq_iff_eq, ← hr, ← hq, BitVec.and_assoc, BitVec.and_assoc, BitVec.and_comm r.mask]

/-- Every row checks the whole opcode. -/
theorem opcodeField_mask : ∀ r ∈ opcodeTable, opcodeField r.mask = 0x3F#6 := by decide

/-- Only equal rows of the table overlap. -/
theorem eq_of_overlaps : ∀ r ∈ opcodeTable, ∀ q ∈ opcodeTable, r.overlaps q = true → r = q := by decide

section Selectors
variable {r : OpcodeRow} {w : Word} (h : r.covers w = true)
include h

theorem opcodeField_of_covers (hm : opcodeField r.mask = 0x3F#6) : opcodeField w = opcodeField r.pattern := by
  rw [← (covers_iff r w).mp h, (fields_and w r.mask).1, and_of_ones hm]

theorem functField_of_covers (hm : functField r.mask = 0x3F#6) : functField w = functField r.pattern := by
  obtain ⟨-, -, -, -, -, hfunct, -⟩ := fields_and w r.mask
  rw [← (covers_iff r w).mp h, hfunct, and_of_ones hm]

theorem rsField_of_covers (hm : rsField r.mask = 0x1F#5) : rsField w = rsField r.pattern := by
  obtain ⟨-, hrs, -⟩ := fields_and w r.mask
  rw [← (covers_iff r w).mp h, hrs, and_of_ones hm]

end Selectors

/-- A word that a row covers has the row's selectors, so it decodes, with its own fields as the operands. -/
theorem decoded_of_covers {r : OpcodeRow} (hr : r ∈ opcodeTable) {w : Word} (h : r.covers w = true) :
    ∃ i, decodeWord w = .ok i := by
  simp only [decodeWord_eq_ok_iff]
  have hop : opcodeField w = opcodeField r.pattern := opcodeField_of_covers h (opcodeField_mask r hr)
  simp only [opcodeTable, List.mem_cons, List.not_mem_nil, or_false] at hr
  obtain rfl | rfl | rfl | rfl | rfl | rfl | rfl | rfl | rfl | rfl | rfl | rfl | rfl | rfl | rfl | rfl | rfl | rfl := hr
  · exact ⟨.lui _ _, hop, rfl, rfl⟩
  · exact ⟨.ori _ _ _, hop, rfl, rfl, rfl⟩
  · exact ⟨.andi _ _ _, hop, rfl, rfl, rfl⟩
  · exact ⟨.addiu _ _ _, hop, rfl, rfl, rfl⟩
  · exact ⟨.addi _ _ _, hop, rfl, rfl, rfl⟩
  · exact ⟨.addu _ _ _, hop, functField_of_covers h rfl, rfl, rfl, rfl⟩
  · exact ⟨.or _ _ _, hop, functField_of_covers h rfl, rfl, rfl, rfl⟩
  · exact ⟨.sll _ _ _, hop, functField_of_covers h rfl, rfl, rfl, rfl⟩
  · exact ⟨.sltu _ _ _, hop, functField_of_covers h rfl, rfl, rfl, rfl⟩
  · exact ⟨.j _, hop, rfl⟩
  · exact ⟨.jal _, hop, rfl⟩
  · exact ⟨.jr _, hop, functField_of_covers h rfl, rfl⟩
  · exact ⟨.bne _ _ _, hop, rfl, rfl, rfl⟩
  · exact ⟨.lw _ _ _, hop, rfl, rfl, rfl⟩
  · exact ⟨.sb _ _ _, hop, rfl, rfl, rfl⟩
  · exact ⟨.sh _ _ _, hop, rfl, rfl, rfl⟩
  · exact ⟨.sw _ _ _, hop, rfl, rfl, rfl⟩
  · exact ⟨.mtc0 _ _, hop, rsField_of_covers h rfl, rfl, rfl⟩

/-- Settles O6: a decoded word is covered by its instruction's row, a covered word decodes, and two rows that cover one word
overlap, so they are equal. -/
theorem oneTableRowPerWord : Obligations.OneTableRowPerWord := by
  unfold Obligations.OneTableRowPerWord
  refine ⟨fun w => ⟨?covered, fun ⟨r, hr, hc⟩ => decoded_of_covers hr hc⟩, fun w i h r hr => ⟨fun hc => ?unique, ?own⟩⟩
  case covered => exact fun ⟨i, h⟩ => ⟨i.row, row_mem_opcodeTable i, row_covers_of_decoded h⟩
  case unique => exact eq_of_overlaps r hr i.row (row_mem_opcodeTable i) (overlaps_of_covers hc (row_covers_of_decoded h))
  case own => rintro rfl; exact row_covers_of_decoded h

end Sys2Proof
end

section
/-! What the execution of an instruction can do, said once, and what follows for each part of the state (10_state R45). -/

namespace Sys2Proof.Machine

/-! ### The two instructions that look at their operands -/

theorem exec_addi_of_overflow {rt rs : Reg} {imm : Half} {s : State} (h : addOverflows (s.x rs) (sext16 imm) = true) :
    exec (.addi rt rs imm) s = .next (s.raise (.addiOverflow (encode (.addi rt rs imm)) (s.x rs))) := if_pos h

theorem exec_addi_of_fits (rt : Reg) {rs : Reg} {imm : Half} {s : State} (h : addOverflows (s.x rs) (sext16 imm) = false) :
    exec (.addi rt rs imm) s = .next (s.stage rt (s.x rs + sext16 imm)) := if_neg (by simp [h])

theorem exec_mtc0_status (rt : Reg) (s : State) : exec (.mtc0 rt 12#5) s = .next (s.setSr (s.x rt)) := rfl

theorem exec_mtc0_other (rt : Reg) {rd : Reg} (s : State) (h : rd ≠ 12#5) :
    exec (.mtc0 rt rd) s = .next (s.emit (.cop0WriteIgnored rd)) := if_neg h

/-! ### The effects -/

/-- The effects an instruction can have, by the named operations over the state, each with what it says of the instruction. -/
inductive Executes : Instr → State → State → Prop
  | stages {i : Instr} {s : State} {d : Reg} {v : Word} (hd : destination i = some d) (ht : transferTarget i s = none) :
      Executes i s (s.stage d v)
  | overflows {rt rs : Reg} {imm : Half} {s : State} {r : HaltReason} : Executes (.addi rt rs imm) s (s.raise r)
  | jumps {i : Instr} {s : State} {target : Word} (hd : destination i = none) (ht : transferTarget i s = some target) :
      Executes i s (s.jump target)
  | links {target : BitVec 26} {s : State} :
      Executes (.jal target) s ((s.stage 31#5 s.pc).jump (jumpTarget s.pc target))
  | falls {rs rt : Reg} {offset : Half} {s : State} (ht : transferTarget (.bne rs rt offset) s = none) :
      Executes (.bne rs rt offset) s s
  | loads {rt base : Reg} {offset : Half} {s : State} : Executes (.lw rt base offset) s (s.load rt (s.ea base offset))
  | stores {i : Instr} {s : State} {w : Width} {rt base : Reg} {offset : Half} (hd : destination i = none)
      (ht : transferTarget i s = none) (hw : w = .word → i = .sw rt base offset) :
      Executes i s (s.store w (s.ea base offset) (s.storeData w rt))
  | setsStatus {rt : Reg} {s : State} : Executes (.mtc0 rt 12#5) s (s.setSr (s.x rt))
  | ignoresCop0 {rt rd : Reg} {s : State} : Executes (.mtc0 rt rd) s (s.emit (.cop0WriteIgnored rd))

/-- Every instruction executes in every state, with one of the effects. -/
theorem exec_total (i : Instr) (s : State) : ∃ t, exec i s = .next t ∧ Executes i s t := by
  cases i with
  | lui | ori | andi | addiu | addu | or | sll | sltu => exact ⟨_, rfl, .stages rfl rfl⟩
  | addi rt rs imm =>
    cases h : addOverflows (s.x rs) (sext16 imm) with
    | true => exact ⟨_, exec_addi_of_overflow h, .overflows⟩
    | false => exact ⟨_, exec_addi_of_fits rt h, .stages rfl rfl⟩
  | j | jr => exact ⟨_, rfl, .jumps rfl rfl⟩
  | jal => exact ⟨_, rfl, .links⟩
  | bne rs rt offset =>
    by_cases h : s.x rs = s.x rt
    · exact ⟨_, exec_bne_of_eq offset h, .falls (if_neg (not_not_intro h))⟩
    · exact ⟨_, exec_bne_of_ne offset h, .jumps rfl (if_pos h)⟩
  | lw rt base offset => exact ⟨_, exec_lw rt base offset s, .loads⟩
  | sb rt base offset => exact ⟨_, exec_sb rt base offset s, .stores rfl rfl nofun⟩
  | sh rt base offset => exact ⟨_, exec_sh rt base offset s, .stores rfl rfl nofun⟩
  | sw rt base offset => exact ⟨_, exec_sw rt base offset s, .stores rfl rfl fun _ => rfl⟩
  | mtc0 rt rd =>
    by_cases h : rd = 12#5
    · subst h; exact ⟨_, exec_mtc0_status rt s, .setsStatus⟩
    · exact ⟨_, exec_mtc0_other rt s h, .ignoresCop0⟩

theorem executes_of_exec {i : Instr} {s t : State} (h : exec i s = .next t) : Executes i s t := by
  obtain ⟨t', h', he⟩ := exec_total i s
  rw [h] at h'
  cases h'
  exact he

/-! ### Field by field -/

/-- An instruction moves the program counter to its transfer target or leaves it alone. -/
theorem Executes.pc_eq {i : Instr} {s t : State} (h : Executes i s t) : t.pc = (transferTarget i s).getD s.pc := by
  cases h with
  | stages _ ht | jumps _ ht | falls ht => simp [ht]
  | stores _ ht => simp [ht]
  | loads => simp [transferTarget]
  | overflows | links | setsStatus | ignoresCop0 => rfl

/-- An instruction stages at most one register, its destination. -/
theorem Executes.shadow_cases {i : Instr} {s t : State} (h : Executes i s t) :
    t.shadow = s.shadow ∨ ∃ d v, destination i = some d ∧ t.shadow = RegFile.write s.shadow d v := by
  cases h with
  | stages hd => exact .inr ⟨_, _, hd, rfl⟩
  | links => exact .inr ⟨_, _, rfl, rfl⟩
  | stores | loads => exact .inl (by simp)
  | overflows | jumps | falls | setsStatus | ignoresCop0 => exact .inl rfl

/-- Only an MTC0 to register 12 writes coprocessor 0 (44_coprocessor0 R170). -/
theorem Executes.cop0_cases {i : Instr} {s t : State} (h : Executes i s t) :
    t.cop0 = s.cop0 ∨ ∃ rt, i = .mtc0 rt 12#5 ∧ t.cop0 = s.cop0.set 12 (s.x rt) := by
  cases h with
  | setsStatus => exact .inr ⟨_, rfl, rfl⟩
  | stores | loads => exact .inl (by simp)
  | stages | overflows | jumps | links | falls | ignoresCop0 => exact .inl rfl

/-- Only an SW writes RAM, aligned, to Main, with the gate open (43_load_store R164, 20_memory R68, R73). -/
theorem Executes.ram_cases {i : Instr} {s t : State} (h : Executes i s t) :
    t.ram = s.ram ∨ ∃ rt base offset, i = .sw rt base offset ∧ s.isolated = false ∧ (s.ea base offset).toNat % 4 = 0
      ∧ classify (translateVa (s.ea base offset)) = .main
      ∧ t.ram = s.ram.write32 (ramOffset (translateVa (s.ea base offset))) (s.storeData .word rt) := by
  cases h with
  | @stores _ _ w rt base offset _ _ hw =>
    obtain ⟨rfl, hi, hc, ha, he⟩ | ⟨r, he⟩ | ⟨ds, -, he⟩ := s.store_cases w (s.ea base offset) (s.storeData w rt)
    · exact .inr ⟨_, _, _, hw rfl, hi, (aligned_iff _).mp ha, hc, by rw [he]⟩
    · exact .inl (by rw [he]; rfl)
    · exact .inl (by rw [he])
  | loads => exact .inl (by simp)
  | stages | overflows | jumps | links | falls | setsStatus | ignoresCop0 => exact .inl rfl

/-- The three ways an instruction can end (60_exceptions R183, R184): without a halt, in a halt and nothing else, or as an LW
that halts with its register's load pending. -/
theorem Executes.halt_cases {i : Instr} {s t : State} (h : Executes i s t) :
    (t.halted = s.halted ∧ ∃ ds, haltReasons ds = [] ∧ t.diags = s.diags ++ ds)
      ∨ (∃ r, t = s.raise r)
      ∨ ∃ rt base offset r, i = .lw rt base offset ∧ t = (s.raise r).setPending rt 0#32 := by
  cases h with
  | @stores _ _ w rt base offset =>
    obtain ⟨-, -, -, -, he⟩ | ⟨r, he⟩ | ⟨ds, hds, he⟩ := s.store_cases w (s.ea base offset) (s.storeData w rt)
    · exact .inl ⟨by rw [he], [], rfl, by rw [he]; simp⟩
    · exact .inr (.inl ⟨r, he⟩)
    · exact .inl ⟨by rw [he], ds, hds, by rw [he]⟩
  | @loads rt base offset =>
    cases hi : s.isolated with
    | true => rw [State.load_isolated hi]; exact .inl ⟨rfl, [.loadIsolated], rfl, rfl⟩
    | false =>
      rw [State.load_open hi]
      cases readWord s (s.ea base offset) with
      | ok v => exact .inl ⟨rfl, [], rfl, by simp⟩
      | error r => exact .inr (.inr ⟨_, _, _, r, rfl, rfl⟩)
  | overflows => exact .inr (.inl ⟨_, rfl⟩)
  | ignoresCop0 => exact .inl ⟨rfl, [.cop0WriteIgnored _], rfl, rfl⟩
  | stages | jumps | links | falls | setsStatus => exact .inl ⟨rfl, [], rfl, by simp⟩

/-- What an instruction reports comes after what was reported before, with at most one halt, and it halts exactly when there
is one. -/
theorem Executes.reports {i : Instr} {s t : State} (h : Executes i s t) :
    ∃ ds, t.diags = s.diags ++ ds
      ∧ ((haltReasons ds = [] ∧ t.halted = s.halted) ∨ ∃ r, haltReasons ds = [r] ∧ t.halted = true) := by
  obtain ⟨hh, ds, hds, ht⟩ | ⟨r, rfl⟩ | ⟨rt, base, offset, r, -, rfl⟩ := h.halt_cases
  · exact ⟨ds, ht, .inl ⟨hds, hh⟩⟩
  · exact ⟨[.halt r], rfl, .inr ⟨r, rfl, rfl⟩⟩
  · exact ⟨[.halt r], rfl, .inr ⟨r, rfl, rfl⟩⟩

end Sys2Proof.Machine
end

section
/-! The cycle (10_state R40 to R49): what a step does to each part of the state, whichever instruction it executes. -/

namespace Sys2Proof.Machine

@[simp] theorem State.beginCycle_ea (s : State) (base : Reg) (offset : Half) : s.beginCycle.ea base offset = s.ea base offset := by
  simp [State.ea]

@[simp] theorem State.beginCycle_storeData (s : State) (w : Width) (rt : Reg) : s.beginCycle.storeData w rt = s.storeData w rt := by
  cases w <;> simp [State.storeData]

theorem State.beginCycle_readWord (s : State) (va : Word) : readWord s.beginCycle va = readWord s va :=
  readWord_congr s.beginCycle_ram s.beginCycle_bios va

@[simp] theorem State.unimplemented_eq (s : State) (w : Word) :
    s.unimplemented w = s.raise (.unimplemented w (opcodeField w) (functField w)) := rfl

/-- A fetch leaves the engine running with nothing reported, or halts it with its reason reported. -/
theorem State.beginCycle_reports {s : State} (hr : s.Running) :
    (s.beginCycle.halted = false ∧ s.beginCycle.diags = [])
      ∨ ∃ r, s.beginCycle.halted = true ∧ s.beginCycle.diags = [.halt r] := by
  cases h : readWord s s.pc with
  | ok w =>
    obtain ⟨hh, hd⟩ := State.beginCycle_ok h
    exact .inl ⟨hh.trans hr, hd⟩
  | error r => exact .inr ⟨r, State.beginCycle_error h⟩

/-! ### The step, by the latched word -/

/-- A word is rejected when no instruction is decoded from it. -/
theorem decodeWord_error_of_forall_ne {w : Word} (h : ∀ i, decodeWord w ≠ .ok i) : ∃ r, decodeWord w = .error r := by
  cases hd : decodeWord w with
  | ok i => exact absurd hd (h i)
  | error r => exact ⟨r, rfl⟩

/-- A cycle that executes an instruction ends as that instruction does, published. -/
theorem step_of_exec {s b : State} (hr : s.Running) {i : Instr} (hd : decodeWord s.ni = .ok i)
    (hb : exec i s.beginCycle = .next b) : step s = .next b.publish := by
  rw [step_decoded hr hd, hb]; rfl

/-- What the step of a decoded word has executed. -/
theorem exec_of_step {s t : State} {i : Instr} (hd : decodeWord s.ni = .ok i) (h : step s = .next t) :
    ∃ b, exec i s.beginCycle = .next b ∧ t = b.publish := by
  obtain ⟨-, ⟨i', b, hd', hb, ht⟩ | ⟨r, hd', -⟩⟩ := step_cases h
  · rw [hd] at hd'; cases hd'; exact ⟨b, hb, ht⟩
  · rw [hd] at hd'; cases hd'

/-- What the step of a word that decodes to nothing answers. -/
theorem unimplemented_of_step {s t : State} (hd : ∀ i, decodeWord s.ni ≠ .ok i) (h : step s = .next t) :
    t = (s.beginCycle.unimplemented s.ni).publish := by
  obtain ⟨-, ⟨i, -, hd', -⟩ | ⟨-, -, ht⟩⟩ := step_cases h
  · exact absurd hd' (hd i)
  · exact ht

/-- A step has executed its latched word's instruction, or halted for want of one. -/
theorem executes_of_step {s t : State} (h : step s = .next t) :
    ∃ b, t = b.publish ∧ ((∃ i, decodeWord s.ni = .ok i ∧ Executes i s.beginCycle b) ∨ ∃ r, b = s.beginCycle.raise r) := by
  obtain ⟨-, ⟨i, b, hd, hb, ht⟩ | ⟨r, -, ht⟩⟩ := step_cases h
  · exact ⟨b, ht, .inl ⟨i, hd, executes_of_exec hb⟩⟩
  · exact ⟨_, ht, .inr ⟨_, rfl⟩⟩

/-! ### Field by field -/

theorem step_ni {s t : State} (h : step s = .next t) : t.ni = readValue (readWord s s.pc) := by
  obtain ⟨-, ⟨i, b, -, hb, rfl⟩ | ⟨r, -, rfl⟩⟩ := step_cases h
  · obtain ⟨-, hni, -⟩ := exec_common hb
    rw [State.publish_ni, hni, State.beginCycle_ni]
  · rfl

theorem step_bios {s t : State} (h : step s = .next t) : t.bios = s.bios := by
  obtain ⟨-, ⟨i, b, -, hb, rfl⟩ | ⟨r, -, rfl⟩⟩ := step_cases h
  · obtain ⟨-, -, hbios⟩ := exec_common hb
    rw [State.publish_bios, hbios, State.beginCycle_bios]
  · simp

/-- A step ends published: the visible file is the shadow file (10_state R46). -/
theorem step_published {s t : State} (h : step s = .next t) : t.regs = t.shadow := by
  obtain ⟨b, rfl, -⟩ := executes_of_step h
  rfl

/-- A step stages at most the destination of its instruction, after the commit. -/
theorem step_shadow_cases {s t : State} (h : step s = .next t) :
    t.shadow = s.beginCycle.shadow ∨ ∃ i d v, decodeWord s.ni = .ok i ∧ destination i = some d
      ∧ t.shadow = RegFile.write s.beginCycle.shadow d v := by
  obtain ⟨b, rfl, ⟨i, hd, he⟩ | ⟨r, rfl⟩⟩ := executes_of_step h
  · obtain hs | ⟨d, v, hdest, hs⟩ := he.shadow_cases
    · exact .inl hs
    · exact .inr ⟨i, d, v, hd, hdest, hs⟩
  · exact .inl rfl

theorem step_cop0_cases {s t : State} (h : step s = .next t) :
    t.cop0 = s.cop0 ∨ ∃ rt, decodeWord s.ni = .ok (.mtc0 rt 12#5) ∧ t.cop0 = s.cop0.set 12 (s.x rt) := by
  obtain ⟨b, rfl, ⟨i, hd, he⟩ | ⟨r, rfl⟩⟩ := executes_of_step h
  · obtain hc | ⟨rt, rfl, hc⟩ := he.cop0_cases
    · exact .inl (hc.trans s.beginCycle_cop0)
    · exact .inr ⟨rt, hd, by simpa using hc⟩
  · exact .inl s.beginCycle_cop0

theorem step_ram_cases {s t : State} (h : step s = .next t) :
    t.ram = s.ram ∨ ∃ rt base offset, decodeWord s.ni = .ok (.sw rt base offset) ∧ s.isolated = false
      ∧ (s.ea base offset).toNat % 4 = 0 ∧ classify (translateVa (s.ea base offset)) = .main
      ∧ t.ram = s.ram.write32 (ramOffset (translateVa (s.ea base offset))) (s.storeData .word rt) := by
  obtain ⟨b, rfl, ⟨i, hd, he⟩ | ⟨r, rfl⟩⟩ := executes_of_step h
  · obtain hm | ⟨rt, base, offset, rfl, hm⟩ := he.ram_cases
    · exact .inl (hm.trans s.beginCycle_ram)
    · exact .inr ⟨rt, base, offset, hd, by simpa using hm⟩
  · exact .inl s.beginCycle_ram

/-- The program counter after the step of a decoded word. -/
theorem step_pc_decoded {s t : State} {i : Instr} (hd : decodeWord s.ni = .ok i) (h : step s = .next t) :
    t.pc = (transferTarget i s.beginCycle).getD (s.pc + 4#32) := by
  obtain ⟨b, hb, rfl⟩ := exec_of_step hd h
  rw [State.publish_pc, (executes_of_exec hb).pc_eq, State.beginCycle_pc]

/-- The program counter after the step of a word that decodes to nothing. -/
theorem step_pc_rejected {s t : State} (hd : ∀ i, decodeWord s.ni ≠ .ok i) (h : step s = .next t) : t.pc = s.pc + 4#32 := by
  rw [unimplemented_of_step hd h]; simp

/-- The program counter after the step of a transfer to `target`. -/
theorem step_pc_transfer {s t : State} {i : Instr} {target : Word} (hd : decodeWord s.ni = .ok i)
    (ht : transferTarget i s.beginCycle = some target) (h : step s = .next t) : t.pc = target := by
  rw [step_pc_decoded hd h, ht]; rfl

/-- The instruction of a step reports after the fetch, with at most one halt. -/
theorem step_reports {s t : State} (h : step s = .next t) :
    ∃ ds, t.diags = s.beginCycle.diags ++ ds
      ∧ ((haltReasons ds = [] ∧ t.halted = s.beginCycle.halted) ∨ ∃ r, haltReasons ds = [r] ∧ t.halted = true) := by
  obtain ⟨b, rfl, ⟨i, -, he⟩ | ⟨r, rfl⟩⟩ := executes_of_step h
  · exact he.reports
  · exact ⟨[.halt r], rfl, .inr ⟨r, rfl, rfl⟩⟩

/-- A step whose fetch fails latches 0 and halts, the fetch's reason first (10_state R42, 60_exceptions R185). -/
theorem step_of_fetch_error {s t : State} {r : HaltReason} (he : readWord s s.pc = .error r) (h : step s = .next t) :
    t.ni = 0#32 ∧ t.halted = true ∧ ∃ rest, t.diags = .halt r :: rest := by
  obtain ⟨hh, hd⟩ := State.beginCycle_error he
  obtain ⟨ds, hds, hend⟩ := step_reports h
  refine ⟨by rw [step_ni h, he]; rfl, ?_, ds, by rw [hds, hd]; rfl⟩
  obtain ⟨-, hsame⟩ | ⟨-, -, hset⟩ := hend
  · exact hsame.trans hh
  · exact hset

end Sys2Proof.Machine
end

section
/-! The cycle as a whole: the statements O34, O36, O37, O38, O39, O40 and O47. -/

namespace Sys2Proof.Machine

/-- A running engine's step answers a next state. -/
theorem step_total {s : State} (hr : s.Running) : ∃ t, step s = .next t := by
  cases hd : decodeWord s.ni with
  | ok i =>
    obtain ⟨b, hb, -⟩ := exec_total i s.beginCycle
    exact ⟨_, step_of_exec hr hd hb⟩
  | error r => exact ⟨_, step_rejected hr hd⟩

theorem step_halted {s : State} (h : s.halted = true) : step s = .fault (.halted (haltReasons s.diags)) := if_pos h

/-- Settles O38: `exec_total` and `step_total`. -/
theorem everyCycleCompletes : Obligations.EveryCycleCompletes := by
  unfold Obligations.EveryCycleCompletes
  refine ⟨fun i s => ?_, fun s hr => step_total hr⟩
  obtain ⟨t, ht, -⟩ := exec_total i s
  exact ⟨t, ht⟩

/-- Settles O37: a step from a running state is a next state, so a fault or a refusal is of a halted one. -/
theorem onlyAHaltedEngineFaults : Obligations.OnlyAHaltedEngineFaults := by
  unfold Obligations.OnlyAHaltedEngineFaults
  refine ⟨fun s => step_halted, fun s f hf => ?fault, fun s r hr => ?refusal⟩
  case fault =>
    by_contra hrun
    obtain ⟨t, ht⟩ := step_total (eq_false_of_ne_true hrun)
    rw [ht] at hf; cases hf
  case refusal =>
    cases hh : s.halted with
    | true => rw [step_halted hh] at hr; cases hr
    | false =>
      obtain ⟨t, ht⟩ := step_total (s := s) hh
      rw [ht] at hr; cases hr

/-- Settles O34: the parts of `beginCycle` by their laws, the two kinds of latched word by `step_of_exec` and `step_rejected`. -/
theorem stepRunsLatchedInstruction : Obligations.StepRunsLatchedInstruction := by
  unfold Obligations.StepRunsLatchedInstruction
  intro s hr
  refine ⟨s.beginCycle_pc, s.beginCycle_pl, s.beginCycle_shadow_get, s.beginCycle_regs, s.beginCycle_cop0, s.beginCycle_ram,
    s.beginCycle_bios, fun i hd => ?decoded, fun hd => ?rejected⟩
  case decoded =>
    obtain ⟨b, hb, -⟩ := exec_total i s.beginCycle
    exact ⟨b, hb, step_of_exec hr hd hb⟩
  case rejected =>
    obtain ⟨r, hr'⟩ := decodeWord_error_of_forall_ne hd
    exact step_rejected hr hr'

/-- Settles O36: the step is the halt after the parts of `beginCycle`, published. -/
theorem unimplementedWordHalts : Obligations.UnimplementedWordHalts := by
  unfold Obligations.UnimplementedWordHalts
  intro s hr hd
  obtain ⟨r, hr'⟩ := decodeWord_error_of_forall_ne hd
  have hop : opcodeField s.ni = BitVec.ofNat 6 (s.ni.toNat / 2 ^ 26) := by
    rw [← opcodeField_toNat, BitVec.ofNat_toNat, BitVec.setWidth_eq]
  have hfunct : functField s.ni = BitVec.ofNat 6 s.ni.toNat := BitVec.eq_of_toNat_eq (by simp [functField_toNat])
  refine ⟨_, s.beginCycle.diags, step_rejected hr hr', rfl, ?_, s.beginCycle_shadow_get, rfl, by simp, by simp, by simp, by simp⟩
  rw [← hop, ← hfunct]; rfl

/-- Settles O47: `step_pc_decoded` and `step_pc_rejected`. -/
theorem programCounterAdvancesOrTransfers : Obligations.ProgramCounterAdvancesOrTransfers := by
  unfold Obligations.ProgramCounterAdvancesOrTransfers
  exact fun s t h => ⟨fun i hd => step_pc_decoded hd h, fun hd => step_pc_rejected hd h⟩

/-- Settles O39: the fetch and the instruction each report at most one halt, and each sets the flag exactly when it does. -/
theorem haltedExactlyWhenRaised : Obligations.HaltedExactlyWhenRaised := by
  unfold Obligations.HaltedExactlyWhenRaised
  refine ⟨fun s t h => ?cycle, fun i s t hs h => ?kept⟩
  case cycle =>
    obtain ⟨hr, -⟩ := step_cases h
    obtain ⟨ds, ht, hend⟩ := step_reports h
    rw [ht, haltReasons_append]
    obtain ⟨hh, hd⟩ | ⟨r, hh, hd⟩ := State.beginCycle_reports hr
    · obtain ⟨hds, hflag⟩ | ⟨r', hds, hflag⟩ := hend
      · simp [hd, hds, hflag, hh, haltReasons]
      · simp [hd, hds, hflag, haltReasons]
    · obtain ⟨hds, hflag⟩ | ⟨r', hds, hflag⟩ := hend
      · simp [hd, hds, hflag, hh, haltReasons]
      · simp [hd, hds, hflag, haltReasons]
  case kept =>
    obtain ⟨-, -, ⟨-, hsame⟩ | ⟨-, -, hset⟩⟩ := (executes_of_exec h).reports
    · exact hsame.trans hs
    · exact hset

/-- A cycle that halts after a good fetch has done nothing in step 5 but raise the halt, or was an LW that also left its
register's load of 0 pending. -/
theorem halt_of_step {s t : State} {w : Word} (hw : readWord s s.pc = .ok w) (h : step s = .next t) (ht : t.halted = true) :
    (∃ r, t = (s.beginCycle.raise r).publish)
      ∨ ∃ rt base offset r, decodeWord s.ni = .ok (.lw rt base offset)
        ∧ t = ((s.beginCycle.raise r).setPending rt 0#32).publish := by
  obtain ⟨hr, -⟩ := step_cases h
  obtain ⟨hrun, -⟩ := State.beginCycle_ok hw
  obtain ⟨b, rfl, ⟨i, hd, he⟩ | ⟨r, rfl⟩⟩ := executes_of_step h
  · obtain ⟨hsame, -⟩ | ⟨r, rfl⟩ | ⟨rt, base, offset, r, rfl, rfl⟩ := he.halt_cases
    · rw [State.publish_halted, hsame, hrun, hr] at ht; cases ht
    · exact .inl ⟨r, rfl⟩
    · exact .inr ⟨rt, base, offset, r, hd, rfl⟩
  · exact .inl ⟨r, rfl⟩

/-- Settles O40: by `halt_of_step` the state is that of the cycle's beginning but for the flag, the reports and the LW's pending
load. -/
theorem haltIsPrecise : Obligations.HaltIsPrecise := by
  unfold Obligations.HaltIsPrecise
  intro s t w hw h ht
  have hni : t.ni = w := by rw [step_ni h, hw]; rfl
  obtain ⟨r, rfl⟩ | ⟨rt, base, offset, r, hd, rfl⟩ := halt_of_step hw h ht
  · exact ⟨s.beginCycle_shadow_get, s.beginCycle_pc, hni, s.beginCycle_cop0, s.beginCycle_ram, s.beginCycle_bios, .inl rfl⟩
  · exact ⟨s.beginCycle_shadow_get, s.beginCycle_pc, hni, s.beginCycle_cop0, s.beginCycle_ram, s.beginCycle_bios,
      .inr ⟨rt, base, offset, hd, rfl⟩⟩

end Sys2Proof.Machine
end

section
/-! The invariant of every reachable state, and what the parts of the state it speaks of can do: the statements O41, O42, O43,
O45 and O46. -/

namespace Sys2Proof.Machine

/-- Settles O45: `step_bios`, and the one way RAM changes in `step_ram_cases`. -/
theorem onlySwChangesMemory : Obligations.OnlySwChangesMemory := by
  unfold Obligations.OnlySwChangesMemory
  refine fun s t h => ⟨step_bios h, fun hne => ?_⟩
  obtain hsame | ⟨rt, base, offset, hd, hi, ha, hc, -⟩ := step_ram_cases h
  · exact absurd hsame hne
  · exact ⟨rt, base, offset, hd, hi, ha, hc⟩

/-- What a write of the status register leaves in each entry of the bank. -/
theorem cop0_set_get (bank : Vector Word 16) (v : Word) (i : Fin 16) : (bank.set 12 v)[i] = if i = 12 then v else bank[i] := by
  by_cases hi : i = 12
  · subst hi; simp
  · have hne : 12 ≠ (i : Nat) := fun h => hi (Fin.ext h.symm)
    simp [hi, hne]

/-- Settles O46: the one way coprocessor 0 changes in `step_cop0_cases`. -/
theorem onlyMtc0ChangesCop0 : Obligations.OnlyMtc0ChangesCop0 := by
  unfold Obligations.OnlyMtc0ChangesCop0
  intro s t h i hne
  obtain hsame | ⟨rt, hd, hset⟩ := step_cop0_cases h
  · exact absurd (by rw [hsame]) hne
  · have hi : i = 12 := by
      by_contra hi
      exact hne (by rw [hset, cop0_set_get, if_neg hi])
    exact ⟨hi, rt, hd, by rw [hset]; simp⟩

/-- No step changes entry 0 of the shadow file: neither the commit nor a staged write reaches it (10_state R21). -/
theorem step_shadow_zero {s t : State} (h : step s = .next t) : t.shadow[0] = s.shadow[0] := by
  have hcommit : s.beginCycle.shadow[0] = s.shadow[0] := by rw [s.beginCycle_shadow, RegFile.write_getElem_zero]
  obtain hs | ⟨i, d, v, -, -, hs⟩ := step_shadow_cases h
  · rw [hs, hcommit]
  · rw [hs, RegFile.write_getElem_zero, hcommit]

/-- Settles O43: reads by `RegFile.read`'s laws, writes by `RegFile.write_getElem_zero`. -/
theorem registerZeroIsHardwired : Obligations.RegisterZeroIsHardwired := by
  unfold Obligations.RegisterZeroIsHardwired
  refine ⟨State.x_zero, fun s r hr => RegFile.read_of_ne_zero s.regs hr, fun s t i h => ?exec, fun s t h => ?step⟩
  case exec =>
    obtain hs | ⟨d, v, -, hs⟩ := (executes_of_exec h).shadow_cases
    · rw [hs]
    · rw [hs, RegFile.write_getElem_zero]
  case step => exact ⟨step_shadow_zero h, by rw [step_published h, step_shadow_zero h]⟩

/-- A step keeps RAM canonical and within its size: the one write it can make is of a word whose offset is a RAM offset. -/
theorem step_ram_wf {s t : State} (h : step s = .next t) (hwf : s.ram.wf = true) (hin : s.ram.within Config.ramSize = true) :
    t.ram.wf = true ∧ t.ram.within Config.ramSize = true := by
  obtain hs | ⟨rt, base, offset, -, -, -, -, hs⟩ := step_ram_cases h
  · rw [hs]; exact ⟨hwf, hin⟩
  · rw [hs]; exact ⟨Memory.write32_wf hwf _ _, Memory.write32_within hin (ramOffset_lt _) _⟩

/-- A step changes no coprocessor-0 entry but 12. -/
theorem step_cop0_get {s t : State} (h : step s = .next t) {i : Fin 16} (hi : i ≠ 12) : t.cop0[i] = s.cop0[i] := by
  obtain hs | ⟨rt, -, hs⟩ := step_cop0_cases h
  · rw [hs]
  · rw [hs, cop0_set_get, if_neg hi]

/-- Settles O41: each conjunct of the invariant by the law of its part of the state. -/
theorem invKeptByStep : Obligations.InvKeptByStep := by
  unfold Obligations.InvKeptByStep
  rintro s t ⟨hzero, hfiles, hram, hramIn, hbios, hbiosIn, hcop0⟩ h
  obtain ⟨hram', hramIn'⟩ := step_ram_wf h hram hramIn
  have hzero' : t.regs[0] = 0#32 := by rw [step_published h, step_shadow_zero h, hfiles, hzero]
  have hcop0' : ∀ i : Fin 16, i ≠ 12 → t.cop0[i] = 0#32 := fun i hi => (step_cop0_get h hi).trans (hcop0 i hi)
  rw [State.Inv, step_bios h]
  exact ⟨hzero', (step_published h).symm, hram', hramIn', hbios, hbiosIn, hcop0'⟩

/-- The firmware image of any file is canonical and within its size. -/
theorem firmwareImage_wf (file : List Byte) :
    (firmwareImage file).wf = true ∧ (firmwareImage file).within Config.biosSize = true := by
  unfold firmwareImage
  split
  · next hlen =>
    have hin := Memory.ofBytesFrom_within 0 file
    rw [Nat.zero_add, hlen] at hin
    exact ⟨Memory.ofBytes_wf file, hin⟩
  · exact ⟨rfl, rfl⟩

theorem State.construct_inv (gpr : RegFile) {ram : Memory} (file : List Byte) (hwf : ram.wf = true)
    (hin : ram.within Config.ramSize = true) : (State.construct gpr ram file).Inv := by
  obtain ⟨hbios, hbiosIn⟩ := firmwareImage_wf file
  exact ⟨by simp [State.construct], rfl, hwf, hin, hbios, hbiosIn, fun i _ => by simp [State.construct]⟩

/-- Settles O42: the reset state is one construction gives. -/
theorem invHoldsAtConstruction : Obligations.InvHoldsAtConstruction := by
  unfold Obligations.InvHoldsAtConstruction
  refine ⟨?_, fun gpr ram file => State.construct_inv gpr file⟩
  rw [State.reset_eq_construct]
  exact State.construct_inv _ _ rfl rfl

end Sys2Proof.Machine
end

section
/-! Two states that differ in one part step alike but for that part: coprocessor 0 outside the isolation bit (the statement
O55), and a pending load that the instruction overwrites (the statement O51). -/

namespace Sys2Proof.Machine

/-- Steps 2 to 4 by what the fetch reads. -/
theorem State.beginCycle_eq (s : State) : s.beginCycle
    = ({ ({ s with diags := [] } : State).raiseIfError (readWord s s.pc) with
        ni := readValue (readWord s s.pc) } : State).advance.commit := rfl

/-! ### Coprocessor 0 -/

/-- A state with another coprocessor-0 bank. -/
def State.withCop0 (s : State) (bank : Vector Word 16) : State := { s with cop0 := bank }

/-- Two banks agree on the one bit that the machine reads: bit 16 of register 12 (20_memory R73). -/
abbrev SameGate (b c : Vector Word 16) : Prop := (b.get 12).getLsbD 16 = (c.get 12).getLsbD 16

theorem sameGate_set (b c : Vector Word 16) (v : Word) : SameGate (b.set 12 v) (c.set 12 v) := by
  have hget (bank : Vector Word 16) : (bank.set 12 v).get 12 = v := (cop0_set_get bank v 12).trans (if_pos rfl)
  rw [SameGate, hget, hget]

theorem State.isolated_withCop0 {s : State} {bank : Vector Word 16} (hb : SameGate bank s.cop0) :
    (s.withCop0 bank).isolated = s.isolated := hb

theorem State.write_withCop0 (s : State) (bank : Vector Word 16) (w : Width) (va v : Word) :
    (s.withCop0 bank).write w va v = (s.write w va v).withCop0 bank := by
  unfold State.write
  split
  · rfl
  · cases classify (translateVa va) with
    | main => cases w <;> rfl
    | expansion1 | scratchpad | hardwareRegs | bios | io | unmapped => rfl

theorem State.store_withCop0 {s : State} {bank : Vector Word 16} (hb : SameGate bank s.cop0) (w : Width) (va v : Word) :
    (s.withCop0 bank).store w va v = (s.store w va v).withCop0 bank := by
  unfold State.store
  rw [State.isolated_withCop0 hb, State.write_withCop0]
  split <;> rfl

theorem State.raiseIfError_withCop0 (s : State) (bank : Vector Word 16) (e : Except HaltReason Word) :
    (s.withCop0 bank).raiseIfError e = (s.raiseIfError e).withCop0 bank := by
  cases e <;> rfl

theorem State.load_withCop0 {s : State} {bank : Vector Word 16} (hb : SameGate bank s.cop0) (rt : Reg) (va : Word) :
    (s.withCop0 bank).load rt va = (s.load rt va).withCop0 bank := by
  have hread : readWord (s.withCop0 bank) va = readWord s va := readWord_congr rfl rfl va
  unfold State.load
  rw [State.isolated_withCop0 hb, hread, State.raiseIfError_withCop0]
  split <;> rfl

/-- Steps 2 to 4 of the cycle do not look at coprocessor 0: the fetch does not pass the gate (20_memory R89). -/
theorem State.beginCycle_withCop0 (s : State) (bank : Vector Word 16) :
    (s.withCop0 bank).beginCycle = s.beginCycle.withCop0 bank := by
  have hread : readWord (s.withCop0 bank) (s.withCop0 bank).pc = readWord s s.pc := readWord_congr rfl rfl s.pc
  rw [(s.withCop0 bank).beginCycle_eq, s.beginCycle_eq, hread]
  cases readWord s s.pc <;> rfl

/-- An instruction reads of coprocessor 0 the isolation bit only, and what it writes there it does not take from there. -/
theorem exec_withCop0 {i : Instr} {s t : State} {bank : Vector Word 16} (hb : SameGate bank s.cop0) (h : exec i s = .next t) :
    ∃ bank', SameGate bank' t.cop0 ∧ exec i (s.withCop0 bank) = .next (t.withCop0 bank') := by
  cases i with
  | lui | ori | andi | addiu | addu | or | sll | sltu | j | jal | jr => cases h; exact ⟨bank, hb, rfl⟩
  | addi rt rs imm =>
    cases ho : addOverflows (s.x rs) (sext16 imm) with
    | true =>
      rw [exec_addi_of_overflow ho] at h; cases h
      exact ⟨bank, hb, exec_addi_of_overflow (s := s.withCop0 bank) ho⟩
    | false =>
      rw [exec_addi_of_fits rt ho] at h; cases h
      exact ⟨bank, hb, exec_addi_of_fits (s := s.withCop0 bank) rt ho⟩
  | bne rs rt offset =>
    by_cases he : s.x rs = s.x rt
    · rw [exec_bne_of_eq offset he] at h; cases h
      exact ⟨bank, hb, exec_bne_of_eq (s := s.withCop0 bank) offset he⟩
    · rw [exec_bne_of_ne offset he] at h; cases h
      exact ⟨bank, hb, exec_bne_of_ne (s := s.withCop0 bank) offset he⟩
  | lw => cases h; exact ⟨bank, by simpa using hb, congrArg _ (State.load_withCop0 hb ..)⟩
  | sb | sh | sw => cases h; exact ⟨bank, by simpa using hb, congrArg _ (State.store_withCop0 hb ..)⟩
  | mtc0 rt rd =>
    by_cases hrd : rd = 12#5
    · subst hrd; cases h
      exact ⟨bank.set 12 (s.x rt), sameGate_set .., rfl⟩
    · rw [exec_mtc0_other rt s hrd] at h; cases h
      exact ⟨bank, hb, exec_mtc0_other rt (s.withCop0 bank) hrd⟩

/-- Settles O55: the relation "equal but for the bank, and the banks agree on the gate" is kept by steps 2 to 4, by every
instruction and by the halt of a word that decodes to nothing. -/
theorem otherStatusBitsAreInert : Obligations.OtherStatusBitsAreInert := by
  unfold Obligations.OtherStatusBitsAreInert
  intro s t bank hb h
  obtain ⟨hr, ⟨i, b, hd, hexec, rfl⟩ | ⟨r, hd, rfl⟩⟩ := step_cases h
  · have hb' : SameGate bank s.beginCycle.cop0 := by rwa [s.beginCycle_cop0]
    obtain ⟨bank', hgate, hexec'⟩ := exec_withCop0 hb' hexec
    rw [← State.beginCycle_withCop0] at hexec'
    exact ⟨bank', hgate, step_of_exec (s := s.withCop0 bank) hr hd hexec'⟩
  · refine ⟨bank, by simpa using hb, (step_rejected (s := s.withCop0 bank) hr hd).trans ?_⟩
    rw [State.beginCycle_withCop0]
    rfl

/-! ### The pending load -/

theorem RegFile.write_write (f : RegFile) (d : Reg) (v w : Word) :
    RegFile.write (RegFile.write f d v) d w = RegFile.write f d w := by
  apply RegFile.ext_get
  intro r
  simp only [RegFile.write_get]
  by_cases h : r = d ∧ d ≠ 0#5
  · rw [if_pos h, if_pos h]
  · rw [if_neg h, if_neg h, if_neg h]

/-- The value of the pending load reaches nothing in steps 2 to 4 but the shadow file. -/
theorem State.beginCycle_pending (s : State) (v : Word) :
    State.beginCycle { s with pl := ⟨s.pl.idx, v⟩ }
      = { s.beginCycle with shadow := RegFile.write s.shadow s.pl.idx v } := by
  have hread : readWord { s with pl := ⟨s.pl.idx, v⟩ } s.pc = readWord s s.pc := readWord_congr rfl rfl s.pc
  rw [State.beginCycle_eq, s.beginCycle_eq, hread]
  cases readWord s s.pc <;> rfl

/-- An instruction with a destination halts, or its one effect beside a jump is to write a value there that does not depend on
the shadow file. -/
theorem exec_of_destination {i : Instr} {d : Reg} (hd : destination i = some d) (s : State) :
    (∃ r, exec i s = .next (s.raise r))
      ∨ ∃ v target, ∀ shadow, exec i { s with shadow := shadow }
          = .next { s with shadow := RegFile.write shadow d v, pc := target } := by
  cases i with
  | lui rt imm => cases hd; exact .inr ⟨upperImm imm, s.pc, fun _ => rfl⟩
  | ori rt rs imm => cases hd; exact .inr ⟨s.x rs ||| zext16 imm, s.pc, fun _ => rfl⟩
  | andi rt rs imm => cases hd; exact .inr ⟨s.x rs &&& zext16 imm, s.pc, fun _ => rfl⟩
  | addiu rt rs imm => cases hd; exact .inr ⟨s.x rs + sext16 imm, s.pc, fun _ => rfl⟩
  | addu rd rs rt => cases hd; exact .inr ⟨s.x rs + s.x rt, s.pc, fun _ => rfl⟩
  | or rd rs rt => cases hd; exact .inr ⟨s.x rs ||| s.x rt, s.pc, fun _ => rfl⟩
  | sll rd rt shamt => cases hd; exact .inr ⟨s.x rt <<< shamt.toNat, s.pc, fun _ => rfl⟩
  | sltu rd rs rt => cases hd; exact .inr ⟨lessUnsigned (s.x rs) (s.x rt), s.pc, fun _ => rfl⟩
  | jal target => cases hd; exact .inr ⟨s.pc, jumpTarget s.pc target, fun _ => rfl⟩
  | addi rt rs imm =>
    cases hd
    cases ho : addOverflows (s.x rs) (sext16 imm) with
    | true => exact .inl ⟨_, exec_addi_of_overflow ho⟩
    | false => exact .inr ⟨s.x rs + sext16 imm, s.pc, fun shadow => exec_addi_of_fits (s := { s with shadow := shadow }) d ho⟩
  | j | jr | bne | lw | sb | sh | sw | mtc0 => cases hd

/-- Settles O51: the commit's write of the register is overwritten by the instruction's. -/
theorem delaySlotWriteWins : Obligations.DelaySlotWriteWins := by
  unfold Obligations.DelaySlotWriteWins
  intro s t i v hd hdest h ht
  obtain ⟨b, hb, rfl⟩ := exec_of_step hd h
  obtain ⟨r, hhalt⟩ | ⟨w, target, hwrite⟩ := exec_of_destination hdest s.beginCycle
  · rw [hhalt] at hb; cases hb
    cases ht
  · obtain ⟨hr, -⟩ := step_cases h
    have hown : exec i s.beginCycle = _ := hwrite s.beginCycle.shadow
    rw [s.beginCycle_shadow, RegFile.write_write] at hown
    have hother := hwrite (RegFile.write s.shadow s.pl.idx v)
    rw [← State.beginCycle_pending, RegFile.write_write, ← hown] at hother
    exact step_of_exec (s := { s with pl := ⟨s.pl.idx, v⟩ }) hr hd (hother.trans hb)

end Sys2Proof.Machine
end

section
/-! Two consecutive cycles: the branch delay (42_control_transfer R154, R155), the link, and the load delay
(70_reset_and_hazards R214 to R218). The statements O48, O49, O50 and O52. -/

namespace Sys2Proof.Machine

/-! ### The branch delay -/

/-- Settles O48: the latch by `step_ni`, the program counter by the laws of `step_pc`, the second cycle's execution by
`exec_of_step`. -/
theorem branchDelayContract : Obligations.BranchDelayContract := by
  unfold Obligations.BranchDelayContract
  refine ⟨fun s t u h1 h2 => ⟨fun w hw => ?latch, fun j hd => exec_of_step hd h2⟩, fun s t u i T _ hd ht h1 h2 => ?transfer⟩
  case latch => rw [step_ni h1, hw]; rfl
  case transfer =>
    have hpc : t.pc = T := step_pc_transfer hd ht h1
    refine ⟨hpc, fun w hw => by rw [step_ni h2, hpc, hw]; rfl, ?_⟩
    cases hd' : decodeWord t.ni with
    | ok j => rw [step_pc_decoded hd' h2, hpc]
    | error r => rw [step_pc_rejected (by simp [hd']) h2, hpc]

theorem exec_jal (target : BitVec 26) (s : State) :
    exec (.jal target) s = .next ((s.stage 31#5 s.pc).jump (jumpTarget s.pc target)) := rfl

/-- A cycle that executes a JAL links the program counter it leaves in step 3 (90_conflicts C3). -/
theorem step_jal_shadow {s t : State} {target : BitVec 26} (hd : decodeWord s.ni = .ok (.jal target)) (h : step s = .next t) :
    t.shadow = RegFile.write s.beginCycle.shadow 31#5 (s.pc + 4#32) := by
  obtain ⟨b, hb, rfl⟩ := exec_of_step hd h
  rw [exec_jal] at hb
  cases hb
  simp

/-- What is read in the cycle after a write to a register other than 0 is the value written. -/
theorem State.x_of_shadow_write {s : State} {f : RegFile} {d : Reg} {v : Word} (hregs : s.regs = s.shadow)
    (hs : s.shadow = RegFile.write f d v) (hd : d ≠ 0#5) : s.x d = v := by
  rw [State.x, hregs, hs, RegFile.read_write, if_pos ⟨rfl, hd⟩]

/-- The link of a JAL, as the next cycle reads it. -/
theorem step_jal_link {s t : State} {target : BitVec 26} (hd : decodeWord s.ni = .ok (.jal target)) (h : step s = .next t) :
    t.x 31#5 = s.pc + 4#32 :=
  State.x_of_shadow_write (step_published h) (step_jal_shadow hd h) (by decide)

/-- From the program counter that step 3 leaves, the branch target is the displacement from the one before it. -/
theorem branchTarget_advanced_toNat (pc : Word) (offset : Half) :
    ((branchTarget (pc + 4#32) offset).toNat : Int) = (pc.toNat + 4 * offset.toInt) % 2 ^ 32 := by
  have hpc : ((pc + 4#32).toNat : Int) = (pc.toNat + 4) % 2 ^ 32 := add_toNat_emod pc 4#32
  rw [branchTarget_toNat, hpc]
  omega

/-- Settles O49: the program counter between the two cycles is T1, so the second links and branches from T1 + 4. -/
theorem transferInDelaySlot : Obligations.TransferInDelaySlot := by
  unfold Obligations.TransferInDelaySlot
  intro s t u i T1 _ hd ht h1 h2
  have hpc : t.pc = T1 := step_pc_transfer hd ht h1
  refine ⟨by rw [step_ni h2, hpc], fun target hjal => ?link, fun rs rt offset hbne hne => ?branch⟩
  case link =>
    have hlink := step_jal_link hjal h2
    rwa [State.x, RegFile.read_of_ne_zero _ (by decide), hpc] at hlink
  case branch =>
    have htarget : transferTarget (.bne rs rt offset) t.beginCycle = some (branchTarget (t.pc + 4#32) offset) := by
      rw [transferTarget, if_pos (by simpa using hne), t.beginCycle_pc]
    rw [step_pc_transfer hbne htarget h2, hpc, branchTarget_advanced_toNat]

/-- Settles O52: the link is in the visible file after its own cycle, where the delay slot's ADDU reads it. -/
theorem linkIsVisibleInDelaySlot : Obligations.LinkIsVisibleInDelaySlot := by
  unfold Obligations.LinkIsVisibleInDelaySlot
  intro s t u target rd hjal h1 haddu hrd h2
  have hlink : t.x 31#5 = s.pc + 4#32 := step_jal_link hjal h1
  obtain ⟨b, hb, rfl⟩ := exec_of_step haddu h2
  rw [exec_addu, t.beginCycle_x, t.beginCycle_x, hlink, State.x_zero, BitVec.add_zero] at hb
  cases hb
  exact ⟨hlink, State.x_of_shadow_write rfl rfl hrd⟩

/-! ### The load delay -/

/-- A cycle that executes an LW whose read succeeds leaves the loaded word pending and stages nothing (43_load_store R161). -/
theorem step_lw {s t : State} {rt base : Reg} {offset : Half} {v : Word} (hd : decodeWord s.ni = .ok (.lw rt base offset))
    (hi : s.isolated = false) (hv : readWord s (s.ea base offset) = .ok v) (h : step s = .next t) :
    t.pl = ⟨rt, v⟩ ∧ t.shadow = s.beginCycle.shadow := by
  obtain ⟨b, hb, rfl⟩ := exec_of_step hd h
  rw [exec_lw, s.beginCycle_ea] at hb
  cases hb
  simp [State.load_pl, State.beginCycle_readWord, hi, hv]

/-- Settles O50: the next instruction reads the visible file, which the LW's cycle has published without the loaded word; the
commit before it puts that word in the shadow file, where only a write of the same register replaces it. -/
theorem loadDelayIsOneInstruction : Obligations.LoadDelayIsOneInstruction := by
  unfold Obligations.LoadDelayIsOneInstruction
  intro s t u rt base offset v hd hrt hi hv h1 h2
  obtain ⟨hpl, hshadow⟩ := step_lw hd hi hv h1
  refine ⟨?before, fun hother => ?after⟩
  case before =>
    rw [t.beginCycle_x, State.x, step_published h1, hshadow, RegFile.read_of_ne_zero _ hrt, s.beginCycle_shadow_get]
    by_cases hidx : s.pl.idx = rt
    · rw [if_pos hidx, if_pos ⟨hidx.symm, hidx ▸ hrt⟩]
    · rw [if_neg hidx, if_neg (fun h => hidx h.1.symm)]
  case after =>
    have hcommit : RegFile.read t.beginCycle.shadow rt = v := by
      rw [t.beginCycle_shadow, hpl, RegFile.read_write, if_pos ⟨rfl, hrt⟩]
    rw [State.x, step_published h2]
    obtain hs | ⟨i, d, w, hd', hdest, hs⟩ := step_shadow_cases h2
    · rw [hs, hcommit]
    · have hne : rt ≠ d := fun h => hother i hd' (h ▸ hdest)
      rw [hs, RegFile.read_write, if_neg (fun h => hne h.1), hcommit]

end Sys2Proof.Machine
end

section
/-! The address map by ranges, and reads of the two backed regions (20_memory R61 to R67, R80, R85). The statements O31, O32, O33
and O35. -/

namespace Sys2Proof.Machine

/-! ### Regions -/

/-- The rows of `classify` as ranges of physical addresses (20_memory R64). -/
theorem classify_iff (pa : Word) : (classify pa = .main ↔ pa.toNat < 0x00800000)
    ∧ (classify pa = .expansion1 ↔ 0x1F000000 ≤ pa.toNat ∧ pa.toNat < 0x1F800000)
    ∧ (classify pa = .scratchpad ↔
        0x00800000 ≤ pa.toNat ∧ pa.toNat < 0x1F000000 ∨ 0x1F800000 ≤ pa.toNat ∧ pa.toNat < 0x1F801000)
    ∧ (classify pa = .hardwareRegs ↔ 0x1F801000 ≤ pa.toNat ∧ pa.toNat < 0x1F803000)
    ∧ (classify pa = .bios ↔ 0x1FC00000 ≤ pa.toNat ∧ pa.toNat < 0x1FC80000)
    ∧ (classify pa = .io ↔ 0xFFFE0000 ≤ pa.toNat ∧ pa.toNat < 0xFFFE1000)
    ∧ (classify pa = .unmapped ↔ 0x1F803000 ≤ pa.toNat ∧ pa.toNat < 0x1FC00000
        ∨ 0x1FC80000 ≤ pa.toNat ∧ pa.toNat < 0xFFFE0000 ∨ 0xFFFE1000 ≤ pa.toNat) := by
  simp only [classify, BitVec.lt_def, BitVec.le_def, BitVec.reduceToNat]
  split_ifs <;> simp only [true_iff, false_iff] <;> omega

theorem classify_main_iff (pa : Word) : classify pa = .main ↔ pa.toNat < 0x00800000 := (classify_iff pa).1

theorem classify_bios_iff (pa : Word) : classify pa = .bios ↔ 0x1FC00000 ≤ pa.toNat ∧ pa.toNat < 0x1FC80000 := by
  obtain ⟨-, -, -, -, hbios, -⟩ := classify_iff pa
  exact hbios

/-- A translated address lies in no segment that translation moves. -/
theorem translateVa_translateVa (va : Word) : translateVa (translateVa va) = translateVa va := by
  apply BitVec.eq_of_toNat_eq
  have hva := translateVa_toNat va
  have hlt := va.isLt
  rw [translateVa_toNat (translateVa va), if_neg, if_neg]
  all_goals
    rw [hva]
    split_ifs <;> omega

/-- Settles O31: `classify_iff` and `translateVa_translateVa`. -/
theorem regionsByRange : Obligations.RegionsByRange := by
  unfold Obligations.RegionsByRange
  exact ⟨classify_iff, translateVa_translateVa⟩

/-! ### Reads of RAM and firmware -/

/-- Translation keeps alignment. -/
theorem translateVa_aligned {va : Word} (ha : va.toNat % 4 = 0) : (translateVa va).toNat % 4 = 0 := by
  rw [translateVa_toNat]
  split_ifs <;> omega

/-- An aligned address needs no rounding in RAM. -/
theorem ramOffset_of_aligned {va : Word} (ha : va.toNat % 4 = 0) :
    ramOffset (translateVa va) = (translateVa va).toNat % 0x200000 := by
  have := translateVa_aligned ha
  rw [ramOffset_eq]
  omega

/-- An aligned address needs no rounding in the firmware image. -/
theorem biosOffset_of_aligned {va : Word} (ha : va.toNat % 4 = 0) :
    biosOffset (translateVa va) = (translateVa va).toNat % 0x80000 := by
  have := translateVa_aligned ha
  rw [biosOffset_eq]
  omega

/-- An aligned read of Main (20_memory R66). -/
theorem readWord_ram (s : State) {va : Word} (ha : va.toNat % 4 = 0) (hc : classify (translateVa va) = .main) :
    readWord s va = .ok (s.ram.read32 ((translateVa va).toNat % 0x200000)) := by
  rw [readWord_main s ((aligned_iff va).mpr ha) hc, ramOffset_of_aligned ha]

/-- An aligned read of BIOS (20_memory R67). -/
theorem readWord_firmware (s : State) {va : Word} (ha : va.toNat % 4 = 0) (hc : classify (translateVa va) = .bios) :
    readWord s va = .ok (s.bios.read32 ((translateVa va).toNat % 0x80000)) := by
  rw [readWord_bios s ((aligned_iff va).mpr ha) hc, biosOffset_of_aligned ha]

/-- A word read from a memory, as the sum of its bytes. -/
theorem Memory.read32_toNat (m : Memory) (o : Nat) : (m.read32 o).toNat = (m.read o).toNat + 2 ^ 8 * (m.read (o + 1)).toNat
    + 2 ^ 16 * (m.read (o + 2)).toNat + 2 ^ 24 * (m.read (o + 3)).toNat := wordOfBytes_toNat ..

/-- Settles O32: each virtual address named translates to its physical address, whose region and offset are then arithmetic. -/
theorem mirrorsAndAliases : Obligations.MirrorsAndAliases := by
  unfold Obligations.MirrorsAndAliases
  refine ⟨fun s o k base ho ha hk hbase => ?ram, fun s o base ho ha hbase => ?firmware⟩
  case ram =>
    simp only [List.mem_cons, List.not_mem_nil, or_false] at hbase
    have hva : (BitVec.ofNat 32 (base + k * 0x200000 + o)).toNat = base + k * 0x200000 + o := by
      rw [BitVec.toNat_ofNat]; omega
    have hpa : (translateVa (BitVec.ofNat 32 (base + k * 0x200000 + o))).toNat = k * 0x200000 + o := by
      rw [translateVa_toNat, hva]
      split_ifs <;> omega
    rw [readWord_ram s (by omega) (by rw [classify_main_iff]; omega), hpa]
    congr 2
    omega
  case firmware =>
    simp only [List.mem_cons, List.not_mem_nil, or_false] at hbase
    have hva : (BitVec.ofNat 32 (base + o)).toNat = base + o := by
      rw [BitVec.toNat_ofNat]; omega
    have hpa : (translateVa (BitVec.ofNat 32 (base + o))).toNat = 0x1FC00000 + o := by
      rw [translateVa_toNat, hva]
      split_ifs <;> omega
    rw [readWord_firmware s (by omega) (by rw [classify_bios_iff]; omega), hpa]
    congr 2
    omega

/-- Settles O35: the latch is what the fetch reads, by region; a failing fetch by `step_of_fetch_error`. -/
theorem fetchFillsLatch : Obligations.FetchFillsLatch := by
  unfold Obligations.FetchFillsLatch
  refine fun s t h => ⟨fun ha hc o ho => ?main, fun ha hc o ho => ?bios, fun ha => ?misaligned, fun ha hm hb => ?unhandled⟩
  case main => rw [step_ni h, readWord_ram s ha hc, ho, readValue_ok, Memory.read32_toNat]
  case bios => rw [step_ni h, readWord_firmware s ha hc, ho, readValue_ok, Memory.read32_toNat]
  case misaligned => exact step_of_fetch_error (readWord_misaligned s ((aligned_iff s.pc).not.mpr ha)) h
  case unhandled => exact step_of_fetch_error (readWord_unhandled s ((aligned_iff s.pc).mpr ha) hm hb) h

/-! ### Reads after a word store -/

/-- The word stored is read back from its offset. -/
theorem Memory.read32_write32_same {m : Memory} (hm : m.wf = true) (o : Nat) (v : Word) : (m.write32 o v).read32 o = v := by
  simp [Memory.read32, Memory.read_write32 hm, wordOfBytes_byteOfWord]

/-- A word that shares no byte with the one stored reads as before. -/
theorem Memory.read32_write32_disjoint {m : Memory} (hm : m.wf = true) {o p : Nat} (h : p + 4 ≤ o ∨ o + 4 ≤ p) (v : Word) :
    (m.write32 o v).read32 p = m.read32 p := by
  have hbyte (k : Nat) (hk : k < 4) : (m.write32 o v).read (p + k) = m.read (p + k) := by
    rw [Memory.read_write32 hm, if_neg (by omega)]
  rw [Memory.read32, Memory.read32, hbyte 1 (by omega), hbyte 2 (by omega), hbyte 3 (by omega)]
  rw [show (m.write32 o v).read p = m.read p from hbyte 0 (by omega)]

/-- After a word store to the RAM offset of `va`, a read of that offset through any address gives the word. -/
theorem readWord_of_ram_written {s t : State} {va va' v : Word} (hwf : s.ram.wf = true) (ha : va.toNat % 4 = 0)
    (hram : t.ram = s.ram.write32 (ramOffset (translateVa va)) v) (ha' : va'.toNat % 4 = 0)
    (hc' : classify (translateVa va') = .main)
    (hsame : (translateVa va').toNat % 0x200000 = (translateVa va).toNat % 0x200000) : readWord t va' = .ok v := by
  rw [readWord_ram t ha' hc', hram, ramOffset_of_aligned ha, hsame, Memory.read32_write32_same hwf]

/-- What a read outside Main gives does not depend on RAM. -/
theorem readWord_congr_outside_main {s t : State} (hb : t.bios = s.bios) {va : Word} (ha : va.toNat % 4 = 0)
    (hc : classify (translateVa va) ≠ .main) : readWord t va = readWord s va := by
  rw [← aligned_iff] at ha
  by_cases hbios : classify (translateVa va) = .bios
  · rw [readWord_bios t ha hbios, readWord_bios s ha hbios, hb]
  · rw [readWord_unhandled t ha hc hbios, readWord_unhandled s ha hc hbios]

/-- An aligned word store to Main, with the gate open. -/
theorem State.store_word_main {s : State} (hs : s.isolated = false) {va : Word} (ha : va.toNat % 4 = 0)
    (hc : classify (translateVa va) = .main) (v : Word) :
    s.store .word va v = { s with ram := s.ram.write32 (ramOffset (translateVa va)) v } := by
  rw [State.store_open hs, State.write_word_main s v ((aligned_iff va).mpr ha) hc]

/-- Settles O33: two aligned RAM offsets are equal or share no byte, and RAM is all that the store changes. -/
theorem readGivesLastWrite : Obligations.ReadGivesLastWrite := by
  unfold Obligations.ReadGivesLastWrite
  intro rt base offset s t va hs hwf ha hc h hva
  rw [exec_sw, State.store_word_main hs ha hc] at h
  have hram : t.ram = s.ram.write32 (ramOffset (translateVa (s.ea base offset))) (s.x rt) := by cases h; rfl
  have hbios : t.bios = s.bios := by cases h; rfl
  refine ⟨readWord_of_ram_written hwf ha hram hva, fun hmain hother => ?other, readWord_congr_outside_main hbios hva⟩
  case other =>
    have h1 := translateVa_aligned ha
    have h2 := translateVa_aligned hva
    rw [readWord_ram t hva hmain, readWord_ram s hva hmain, hram, ramOffset_of_aligned ha,
      Memory.read32_write32_disjoint hwf (by omega)]

end Sys2Proof.Machine
end

section
/-! Loads and stores (43_load_store R160 to R164) and what the next cycle sees of a store or of the gate. The statements O21 to
O26, O53 and O54. -/

namespace Sys2Proof.Machine

/-! ### Addresses and data -/

theorem State.ea_toNat (s : State) (base : Reg) (offset : Half) :
    ((s.ea base offset).toNat : Int) = ((s.x base).toNat + offset.toInt) % 2 ^ 32 := by
  rw [State.ea, add_toNat_emod, sext16_toInt]

theorem State.storeData_byte_toNat (s : State) (rt : Reg) : (s.storeData .byte rt).toNat = (s.x rt).toNat % 2 ^ 8 := by
  rw [State.storeData, BitVec.toNat_setWidth_of_le (by decide), BitVec.toNat_setWidth]

theorem State.storeData_half_toNat (s : State) (rt : Reg) : (s.storeData .half rt).toNat = (s.x rt).toNat % 2 ^ 16 := by
  rw [State.storeData, BitVec.toNat_setWidth_of_le (by decide), BitVec.toNat_setWidth]

/-- The operands of a load or a store are the fields of its word. -/
theorem operands_of_fields {w : Word} {rt base : Reg} {offset : Half} (hrt : rt = rtField w) (hbase : base = rsField w)
    (hoffset : offset = immField w) :
    base.toNat = w.toNat / 2 ^ 21 % 2 ^ 5 ∧ rt.toNat = w.toNat / 2 ^ 16 % 2 ^ 5 ∧ offset.toNat = w.toNat % 2 ^ 16 :=
  ⟨hbase ▸ rsField_toNat w, hrt ▸ rtField_toNat w, hoffset ▸ immField_toNat w⟩

/-- Settles O21: addresses and data as numbers, the operands by the fields of a decoded word, the register files by the frames of
`load` and `store`. -/
theorem effectiveAddressAndData : Obligations.EffectiveAddressAndData := by
  unfold Obligations.EffectiveAddressAndData
  refine ⟨State.ea_toNat, fun s rt => ⟨s.storeData_byte_toNat rt, s.storeData_half_toNat rt, rfl⟩,
    fun w rt base offset => ?fields, fun s rt base offset => ?files⟩
  case fields =>
    simp only [List.forall_mem_cons, decodeWord_eq_ok_iff, Instr.FieldsOf]
    exact ⟨fun ⟨_, h1, h2, h3⟩ => operands_of_fields h1 h2 h3, fun ⟨_, h1, h2, h3⟩ => operands_of_fields h1 h2 h3,
      fun ⟨_, h1, h2, h3⟩ => operands_of_fields h1 h2 h3, fun ⟨_, h1, h2, h3⟩ => operands_of_fields h1 h2 h3,
      List.forall_mem_nil _⟩
  case files =>
    simp only [List.forall_mem_cons, exec_lw, exec_sb, exec_sh, exec_sw]
    exact ⟨⟨_, rfl, s.load_regs .., s.load_shadow ..⟩, ⟨_, rfl, s.store_regs .., s.store_shadow ..⟩,
      ⟨_, rfl, s.store_regs .., s.store_shadow ..⟩, ⟨_, rfl, s.store_regs .., s.store_shadow ..⟩, List.forall_mem_nil _⟩

/-! ### LW -/

theorem State.load_loadFrame (s : State) (rt : Reg) (va : Word) : LoadFrame s (s.load rt va) := by
  simp [LoadFrame, SameVisible, SameShadow, SamePc, SameLatch, SameCop0, SameRam, SameBios]

/-- A load whose read succeeds only stages the word. -/
theorem State.load_ok {s : State} (hs : s.isolated = false) {va v : Word} (hv : readWord s va = .ok v) (rt : Reg) :
    s.load rt va = s.setPending rt v := by
  rw [State.load_open hs, hv]; rfl

/-- A load whose read fails halts with a load of 0 pending (20_memory R65, D25). -/
theorem State.load_error {s : State} (hs : s.isolated = false) {va : Word} {r : HaltReason} (he : readWord s va = .error r)
    (rt : Reg) : s.load rt va = (s.raise r).setPending rt 0#32 := by
  rw [State.load_open hs, he]; rfl

theorem exec_lw_ok {s : State} (hs : s.isolated = false) {base : Reg} {offset : Half} {v : Word}
    (hv : readWord s (s.ea base offset) = .ok v) (rt : Reg) :
    ∃ t, exec (.lw rt base offset) s = .next t ∧ t.pl = ⟨rt, v⟩ ∧ LoadFrame s t ∧ Silent s t := by
  have hload := State.load_ok hs hv rt
  exact ⟨_, exec_lw rt base offset s, by rw [hload]; rfl, s.load_loadFrame .., by rw [hload]; exact ⟨rfl, rfl⟩⟩

theorem exec_lw_error {s : State} (hs : s.isolated = false) {base : Reg} {offset : Half} {r : HaltReason}
    (he : readWord s (s.ea base offset) = .error r) (rt : Reg) :
    ∃ t, exec (.lw rt base offset) s = .next t ∧ t.pl = ⟨rt, 0#32⟩ ∧ LoadFrame s t ∧ Halts r s t := by
  have hload := State.load_error hs he rt
  exact ⟨_, exec_lw rt base offset s, by rw [hload]; rfl, s.load_loadFrame .., by rw [hload]; exact ⟨rfl, rfl⟩⟩

/-- Settles O22: what the read gives, by alignment and region, becomes the pending load. -/
theorem lwStagesPendingLoad : Obligations.LwStagesPendingLoad := by
  unfold Obligations.LwStagesPendingLoad
  refine ⟨decodeWord_lw, fun rt base offset s hs => ⟨fun ha hc => ?main, fun ha hc => ?bios, fun ha => ?misaligned,
    fun ha tag hc htag => ?unhandled⟩⟩
  case main =>
    obtain ⟨t, ht, hpl, hframe, hsilent⟩ := exec_lw_ok hs (readWord_ram s ha hc) rt
    refine ⟨t, ht, by rw [hpl], hframe, hsilent, fun o ho => ?_⟩
    rw [hpl, ho, Memory.read32_toNat]
  case bios =>
    obtain ⟨t, ht, hpl, hframe, hsilent⟩ := exec_lw_ok hs (readWord_firmware s ha hc) rt
    refine ⟨t, ht, by rw [hpl], hframe, hsilent, fun o ho => ?_⟩
    rw [hpl, ho, Memory.read32_toNat]
  case misaligned => exact exec_lw_error hs (readWord_misaligned s ((aligned_iff _).not.mpr ha)) rt
  case unhandled =>
    have hm : tag ≠ .main := by rintro rfl; simp at htag
    have hb : tag ≠ .bios := by rintro rfl; simp at htag
    subst hc
    exact exec_lw_error hs (readWord_unhandled s ((aligned_iff _).mpr ha) hm hb) rt

/-! ### Stores that change no byte -/

/-- A halt alone (60_exceptions R183) changes nothing of the machine. -/
theorem State.raise_halts (s : State) (r : HaltReason) : SameMachine s (s.raise r) ∧ Halts r s (s.raise r) :=
  ⟨⟨rfl, rfl, rfl, rfl, rfl, fun _ => rfl, fun _ => rfl, fun _ => rfl⟩, rfl, rfl⟩

theorem State.write_misaligned (s : State) {w : Width} {va : Word} (h : va.toNat % w.bytes ≠ 0) (v : Word) :
    s.write w va v = s.raise (.misalignedWrite va w.bytes) :=
  if_pos (eq_true_of_ne_false ((misaligned_eq_false_iff w va).not.mpr h))

/-- A store to a device changes nothing of the machine, and what it reports, if anything, is that store (20_memory R71). -/
theorem State.storeDevice_reports (s : State) (w : Width) (va v : Word) :
    Silent s (s.storeDevice w va v) ∨ Reports (.deviceWriteIgnored va w v) s (s.storeDevice w va v) := by
  simp only [Silent, Reports, State.storeDevice_halted, State.storeDevice_diags]
  cases Config.deviceWriteDiag w.bytes va v with
  | true => right; simp
  | false => left; simp

/-- An aligned store that does not write a RAM word, by region (20_memory R68, R70 to R72). -/
theorem State.store_by_region {s : State} (hs : s.isolated = false) {w : Width} {va : Word} (ha : va.toNat % w.bytes = 0)
    (hmain : classify (translateVa va) = .main → w ≠ .word) (v : Word) :
    SameMachine s (s.store w va v)
      ∧ (classify (translateVa va) = .main → Reports (.narrowStoreIgnored va w v) s (s.store w va v))
      ∧ (classify (translateVa va) = .bios → Reports (.firmwareWriteRejected va w v) s (s.store w va v))
      ∧ (classify (translateVa va) ∈ [RegionTag.hardwareRegs, .io] →
          Silent s (s.store w va v) ∨ Reports (.deviceWriteIgnored va w v) s (s.store w va v))
      ∧ (classify (translateVa va) ∈ [RegionTag.expansion1, .scratchpad, .unmapped] →
          Halts (.unhandledWrite va (translateVa va) (classify (translateVa va)) v) s (s.store w va v)) := by
  have hw := (misaligned_eq_false_iff w va).mpr ha
  rw [State.store_open hs]
  cases hc : classify (translateVa va) with
  | main =>
    have hemit : s.write w va v = s.emit (.narrowStoreIgnored va w v) := by
      unfold State.write
      rw [if_neg (by simp [hw]), hc]
      cases w with
      | byte | half => rfl
      | word => exact absurd rfl (hmain hc)
    rw [hemit]
    exact ⟨(s.emit_reports _).1, fun _ => (s.emit_reports _).2, nofun, by simp, by simp⟩
  | bios =>
    rw [s.write_bios v hw hc]
    exact ⟨(s.emit_reports _).1, nofun, fun _ => (s.emit_reports _).2, by simp, by simp⟩
  | hardwareRegs =>
    rw [s.write_device v hw (.inl hc)]
    exact ⟨sameMachine_withDiags s _, nofun, nofun, fun _ => s.storeDevice_reports w va v, by simp⟩
  | io =>
    rw [s.write_device v hw (.inr hc)]
    exact ⟨sameMachine_withDiags s _, nofun, nofun, fun _ => s.storeDevice_reports w va v, by simp⟩
  | expansion1 | scratchpad | unmapped =>
    have hraise : s.write w va v = s.raise (.unhandledWrite va (translateVa va) (classify (translateVa va)) v) := by
      unfold State.write
      rw [if_neg (by simp [hw]), hc]
    rw [hraise, hc]
    exact ⟨(s.raise_halts _).1, nofun, nofun, by simp, fun _ => (s.raise_halts _).2⟩

/-- A misaligned store halts whatever the region (20_memory R77). -/
theorem State.store_misaligned {s : State} (hs : s.isolated = false) {w : Width} {va : Word} (ha : va.toNat % w.bytes ≠ 0)
    (v : Word) : SameMachine s (s.store w va v) ∧ Halts (.misalignedWrite va w.bytes) s (s.store w va v) := by
  rw [State.store_open hs, s.write_misaligned ha]
  exact s.raise_halts _

/-- Settles O23: a byte store is always aligned. -/
theorem sbChangesNoByte : Obligations.SbChangesNoByte := by
  unfold Obligations.SbChangesNoByte
  refine ⟨decodeWord_sb, fun rt base offset s hs tag hc => ⟨_, exec_sb rt base offset s, ?_⟩⟩
  subst hc
  exact State.store_by_region (w := .byte) hs (Nat.mod_one _) (fun _ => nofun) _

/-- Settles O24: the alignment decides between `State.store_misaligned` and `State.store_by_region`. -/
theorem shChangesNoByte : Obligations.ShChangesNoByte := by
  unfold Obligations.ShChangesNoByte
  refine ⟨decodeWord_sh, fun rt base offset s hs tag hc => ⟨_, exec_sh rt base offset s, ?_⟩⟩
  subst hc
  by_cases ha : (s.ea base offset).toNat % 2 = 0
  · obtain ⟨hsame, hregion⟩ := State.store_by_region (w := .half) hs ha (fun _ => nofun) (s.storeData .half rt)
    exact ⟨hsame, fun h => absurd ha h, fun _ => hregion⟩
  · obtain ⟨hsame, hhalt⟩ := State.store_misaligned (w := .half) hs ha (s.storeData .half rt)
    exact ⟨hsame, fun _ => hhalt, fun h => absurd h ha⟩

/-- Settles O26: as for SH, outside Main. -/
theorem swOutsideMain : Obligations.SwOutsideMain := by
  unfold Obligations.SwOutsideMain
  intro rt base offset s hs tag hc
  subst hc
  refine ⟨fun ha => ⟨_, exec_sw rt base offset s, State.store_misaligned (w := .word) hs ha _⟩, fun ha hm => ?_⟩
  obtain ⟨hsame, -, hregion⟩ := State.store_by_region (w := .word) hs ha (fun h => absurd h hm) (s.x rt)
  exact ⟨_, exec_sw rt base offset s, hsame, hregion⟩

/-! ### SW to Main -/

theorem byteOfWord_toNat (v : Word) (k : Nat) : (byteOfWord v k).toNat = v.toNat / 2 ^ (8 * k) % 2 ^ 8 := slice_toNat v (8 * k) 8

/-- Settles O25: the store's one effect is on RAM, and `Memory.read_write32` says what each byte is after it. -/
theorem swWritesFourBytes : Obligations.SwWritesFourBytes := by
  unfold Obligations.SwWritesFourBytes
  refine ⟨decodeWord_sw, fun rt base offset s hs hwf ha hc => ⟨_, exec_sw rt base offset s, ?_⟩⟩
  rw [State.store_word_main hs ha hc]
  refine ⟨⟨rfl, rfl, rfl, rfl, rfl, fun _ => rfl, fun _ => rfl, rfl, rfl⟩, fun o ho a => ?_⟩
  simp only [ramOffset_of_aligned ha, ← ho, Memory.read_write32 hwf]
  refine ⟨fun k hk hak => ?stored, fun hout => if_neg hout⟩
  case stored => rw [if_pos (by omega), byteOfWord_toNat, show a - o = k by omega]; rfl

/-! ### The next cycle -/

/-- A cycle that executes an aligned SW to Main with the gate open stores the word as its last act on RAM. -/
theorem step_sw_main {s t : State} {rt base : Reg} {offset : Half} (hd : decodeWord s.ni = .ok (.sw rt base offset))
    (hi : s.isolated = false) (ha : (s.ea base offset).toNat % 4 = 0)
    (hc : classify (translateVa (s.ea base offset)) = .main) (h : step s = .next t) :
    t.ram = s.ram.write32 (ramOffset (translateVa (s.ea base offset))) (s.x rt) := by
  obtain ⟨b, hb, rfl⟩ := exec_of_step hd h
  rw [exec_sw, s.beginCycle_ea, State.store_word_main (s.beginCycle_isolated.trans hi) ha hc] at hb
  cases hb
  simp [State.storeData]

/-- Settles O53: the fetch of a cycle comes before its store, and the next cycle's fetch reads the RAM it left. -/
theorem storeIsSeenByTheNextFetch : Obligations.StoreIsSeenByTheNextFetch := by
  unfold Obligations.StoreIsSeenByTheNextFetch
  intro s t u rt base offset hwf hd hi ha hc h1 h2
  refine ⟨step_ni h1, fun hpc hmain hsame => ?_⟩
  rw [step_ni h2, readWord_of_ram_written hwf ha (step_sw_main hd hi ha hc h1) hpc hmain hsame, readValue_ok]

/-- A cycle that executes an MTC0 to register 12 leaves the gate as bit 16 of its source says. -/
theorem step_mtc0_isolated {s t : State} {rt : Reg} (hd : decodeWord s.ni = .ok (.mtc0 rt 12#5)) (h : step s = .next t) :
    t.isolated = true ↔ (s.x rt).toNat / 2 ^ 16 % 2 = 1 := by
  obtain ⟨b, hb, rfl⟩ := exec_of_step hd h
  rw [exec_mtc0_status] at hb
  cases hb
  simp [State.isolated_iff]

/-- Settles O54: the gate that the MTC0 leaves decides what the SW of the next cycle does. -/
theorem statusGovernsNextAccess : Obligations.StatusGovernsNextAccess := by
  unfold Obligations.StatusGovernsNextAccess
  intro s t u rt rt' base offset hmtc0 h1 hsw h2
  have hgate := step_mtc0_isolated hmtc0 h1
  refine ⟨fun hset => ?skipped, fun hclear hwf ha hc => ?stored⟩
  case skipped =>
    obtain ⟨b, hb, rfl⟩ := exec_of_step hsw h2
    rw [exec_sw, State.store_isolated (t.beginCycle_isolated.trans (hgate.mpr hset))] at hb
    cases hb
    simp
  case stored =>
    have hopen : t.isolated = false := eq_false_of_ne_true (hgate.not.mpr (by omega))
    exact readWord_of_ram_written hwf ha (step_sw_main hsw hopen ha hc h2) ha hc rfl

end Sys2Proof.Machine
end

section
/-! ADDI, jumps and MTC0 (40_alu_immediate R134, 42_control_transfer R150 to R156, 44_coprocessor0 R170). The statements O12, O17,
O18, O19 and O29. -/

namespace Sys2Proof.Machine

/-! ### ADDI -/

theorem addOverflows_eq_false_iff (a b : Word) :
    addOverflows a b = false ↔ -2 ^ 31 ≤ a.toInt + b.toInt ∧ a.toInt + b.toInt ≤ 2 ^ 31 - 1 := by
  simp only [addOverflows, Bool.or_eq_false_iff, decide_eq_false_iff_not]
  omega

/-- A signed sum in range is the sum of the words. -/
theorem add_toInt_of_fits {a b : Word} (h : -2 ^ 31 ≤ a.toInt + b.toInt ∧ a.toInt + b.toInt ≤ 2 ^ 31 - 1) :
    (a + b).toInt = a.toInt + b.toInt := by
  rw [BitVec.toInt_add]
  exact Int.bmod_eq_of_le (by omega) (by omega)

/-- Settles O12: the range test is `addOverflows`, whose two answers are the two arms of ADDI. -/
theorem addiChecksOverflow : Obligations.AddiChecksOverflow := by
  unfold Obligations.AddiChecksOverflow
  refine ⟨decodeWord_addi, fun rt rs imm s => ?_⟩
  rw [← sext16_toInt, ← addOverflows_eq_false_iff]
  refine ⟨fun hfits => ?fits, fun hover => ?overflows⟩
  case fits =>
    exact ⟨_, _, exec_addi_of_fits rt hfits, add_toInt_of_fits ((addOverflows_eq_false_iff ..).mp hfits),
      s.stage_stagesOnly rt _⟩
  case overflows =>
    exact ⟨_, exec_addi_of_overflow (eq_true_of_ne_false hover), s.raise_halts _⟩

/-! ### J, JAL and JR -/

theorem exec_j (target : BitVec 26) (s : State) : exec (.j target) s = .next (s.jump (jumpTarget s.pc target)) := rfl

theorem exec_jr (rs : Reg) (s : State) : exec (.jr rs) s = .next (s.jump (s.x rs)) := rfl

/-- The jump target as its three parts: the region, the field and two zero bits. -/
theorem jumpTarget_eq_append (pc : Word) (target : BitVec 26) :
    jumpTarget pc target = pc.extractLsb' 28 4 ++ target ++ 0#2 := by
  apply BitVec.eq_of_getLsbD_eq
  intro k hk
  simp only [jumpTarget, BitVec.getLsbD_or, BitVec.getLsbD_and, BitVec.getLsbD_shiftLeft, BitVec.getLsbD_setWidth,
    BitVec.getLsbD_append, BitVec.getLsbD_extractLsb']
  interval_cases k <;> simp

/-- The jump target is in the 256 MiB region of the program counter (42_control_transfer R150, D14). -/
theorem jumpTarget_toNat (pc : Word) (target : BitVec 26) :
    (jumpTarget pc target).toNat = pc.toNat / 2 ^ 28 * 2 ^ 28 + 4 * target.toNat := by
  rw [jumpTarget_eq_append, append_toNat, append_toNat, slice_toNat, BitVec.toNat_ofNat]
  omega

/-- Settles O17: one jump to the jump target. -/
theorem jumpStaysInRegion : Obligations.JumpStaysInRegion := by
  unfold Obligations.JumpStaysInRegion
  exact ⟨decodeWord_j, fun target s => ⟨_, _, exec_j target s, jumpTarget_toNat s.pc target, s.jump_jumpsOnly _⟩⟩

/-- Settles O18: one staged write of register 31, then a jump to the jump target. -/
theorem jumpAndLinkStagesPc : Obligations.JumpAndLinkStagesPc := by
  unfold Obligations.JumpAndLinkStagesPc
  refine ⟨decodeWord_jal, fun target s => ⟨_, exec_jal target s, jumpTarget_toNat s.pc target, fun r => ?link, rfl, rfl, rfl,
    fun _ => rfl, fun _ => rfl, fun _ => rfl, rfl, rfl⟩⟩
  case link =>
    have hget := RegFile.write_get s.shadow 31#5 r s.pc
    simpa using hget

/-- Settles O19: JR is one jump to the register's value; the cycle that then fetches from a misaligned program counter reports as
`step_of_fetch_error` says, and executes and publishes as ever. -/
theorem jumpRegisterIgnoresAlignment : Obligations.JumpRegisterIgnoresAlignment := by
  unfold Obligations.JumpRegisterIgnoresAlignment
  refine ⟨decodeWord_jr, fun rs s => ⟨_, exec_jr rs s, s.jump_jumpsOnly _⟩, fun s b i hr hpc hd hb => ?cycle⟩
  case cycle =>
    have hstep := step_of_exec hr hd hb
    obtain ⟨hni, hhalted, rest, hdiags⟩ :=
      step_of_fetch_error (readWord_misaligned s ((aligned_iff s.pc).not.mpr hpc)) hstep
    exact ⟨_, rest, hstep, hhalted, hni, hdiags, rfl, rfl, rfl⟩

/-! ### MTC0 -/

/-- The two unread fields of an MTC0 word, joined. -/
theorem mtc0_word (rt rd : Reg) (x : BitVec 11) :
    0b010000#6 ++ 0b00100#5 ++ rt ++ rd ++ x = encodeR 0x10#6 0x04#5 rt rd (x.extractLsb' 6 5) (x.extractLsb' 0 6) := by
  apply BitVec.eq_of_toNat_eq
  simp only [encodeR, append_toNat, BitVec.extractLsb'_toNat, Nat.shiftRight_eq_div_pow]
  omega

/-- Settles O29: register number 12 is a write of the status register, any other number one report. -/
theorem moveToStatusRegister : Obligations.MoveToStatusRegister := by
  unfold Obligations.MoveToStatusRegister
  refine ⟨fun rt rd x => ?decode, fun rt rd s => ⟨?status, fun hrd => ⟨_, exec_mtc0_other rt s hrd, s.emit_reports _⟩⟩⟩
  case decode => rw [mtc0_word, decodeWord_mtc0]
  case status =>
    rintro rfl
    exact ⟨_, exec_mtc0_status rt s, cop0_set_get s.cop0 (s.x rt), rfl, rfl, rfl, rfl, rfl, fun _ => rfl, fun _ => rfl, rfl, rfl⟩

end Sys2Proof.Machine
end

section
/-! Construction (70_reset_and_hazards R210 to R212). The statements O56 and O57. -/

namespace Sys2Proof.Machine

/-- A firmware file of the right size gives its bytes, with nothing to report. -/
theorem firmware_of_right_size {file : List Byte} (h : file.length = Config.biosSize) :
    firmwareDiags file = [] ∧ ∀ k, (firmwareImage file).read k = file.getD k 0#8 := by
  refine ⟨if_pos h, fun k => ?_⟩
  rw [firmwareImage, if_pos h, Memory.ofBytes, Memory.read_ofBytesFrom, if_pos (Nat.zero_le k)]
  rfl

/-- A firmware file of another size gives the all-zero image and one report. -/
theorem firmware_of_wrong_size {file : List Byte} (h : file.length ≠ Config.biosSize) :
    firmwareDiags file = [.firmwareSizeRejected file.length] ∧ ∀ k, (firmwareImage file).read k = 0#8 := by
  refine ⟨if_neg h, fun k => ?_⟩
  rw [firmwareImage, if_neg h]
  rfl

/-- Settles O56: the fields of `State.construct`, and the firmware by the size of its file. -/
theorem stateAfterConstruction : Obligations.StateAfterConstruction := by
  unfold Obligations.StateAfterConstruction
  refine ⟨by decide, fun gpr ram file s hs => ?_⟩
  subst hs
  refine ⟨rfl, rfl, rfl, rfl, rfl, fun i => by simp [State.construct], fun r => ⟨?_, rfl⟩, firmware_of_right_size,
    firmware_of_wrong_size⟩
  by_cases hr : r = 0
  · subst hr; simp [State.construct]
  · have hne : 0 ≠ (r : Nat) := fun h => hr (Fin.ext h.symm)
    simp [State.construct, hr, hne]

/-- Settles O57: the latch holds the no-op, a shift into register 0, and the fetch reads firmware offset 0. -/
theorem firstCycleFetchesFirmware : Obligations.FirstCycleFetchesFirmware := by
  unfold Obligations.FirstCycleFetchesFirmware
  intro gpr ram file hfile
  have hread : readWord (State.construct gpr ram file) Config.resetPc = .ok ((firmwareImage file).read32 0) :=
    readWord_firmware (State.construct gpr ram file) (va := Config.resetPc) (by decide) (by decide)
  have hnop : decodeWord (State.construct gpr ram file).ni = .ok (.sll 0#5 0#5 0#5) := by
    change decodeWord 0#32 = _
    decide
  have hstep := step_of_exec (s := State.construct gpr ram file) rfl hnop (exec_sll ..)
  obtain ⟨-, hbytes⟩ := firmware_of_right_size hfile
  have hpc : Config.resetPc + 4#32 = 0xBFC00004#32 := by decide
  refine ⟨_, hstep, (State.beginCycle_pc _).trans hpc, (State.beginCycle_ok hread).1, ?latch, fun r => ?regs, State.beginCycle_ram _⟩
  case latch =>
    have hni := (step_ni hstep).trans (congrArg readValue hread)
    rw [hni, readValue_ok, Memory.read32_toNat]
    simp only [hbytes]
  case regs =>
    rw [State.x_publish, State.stage_shadow, RegFile.write_zero, State.beginCycle_shadow]
    rfl

end Sys2Proof.Machine
end

section
/-! The assembler (30_encoding R114, R115): fields that reach the address written, and constants loaded. The statements O58 and
O59. -/

namespace Sys2Proof.Machine

/-! ### Jump and branch fields -/

theorem jumpReaches_iff (a target : Word) : jumpReaches a target = true
    ↔ target.toNat % 4 = 0 ∧ target.toNat / 2 ^ 28 = (a + 8#32).toNat / 2 ^ 28 := by
  have h1 := target.isLt
  have h2 := (a + 8#32).isLt
  rw [jumpReaches, Bool.and_eq_true, beq_iff_eq, beq_iff_eq, aligned_iff, ← BitVec.toNat_inj, slice_toNat, slice_toNat]
  omega

/-- A target in reach is put together again from the region and the field (42_control_transfer R150). -/
theorem jumpTarget_jumpField {a target : Word} (h : jumpReaches a target = true) :
    jumpTarget (a + 8#32) (jumpField target) = target := by
  obtain ⟨haligned, hregion⟩ := (jumpReaches_iff a target).mp h
  apply BitVec.eq_of_toNat_eq
  rw [jumpTarget_toNat, ← hregion, jumpField, slice_toNat]
  omega

theorem branchReaches_iff (a label : Word) : branchReaches a label = true
    ↔ (label - (a + 4#32)).toNat % 4 = 0
      ∧ -(2 ^ 17) ≤ (label - (a + 4#32)).toInt ∧ (label - (a + 4#32)).toInt < 2 ^ 17 := by
  simp only [branchReaches, Bool.and_eq_true, beq_iff_eq, aligned_iff, decide_eq_true_eq, and_assoc]

/-- A displacement in reach is four times its field, which loses neither its low bits nor its sign. -/
theorem branchField_toInt {a label : Word} (h : branchReaches a label = true) :
    4 * (branchField a label).toInt = (label - (a + 4#32)).toInt := by
  obtain ⟨haligned, hlow, hhigh⟩ := (branchReaches_iff a label).mp h
  rw [half_toInt, branchField, slice_toNat]
  rw [BitVec.toInt_eq_toNat_cond] at hlow hhigh ⊢
  split at hlow <;> split <;> omega

/-- A label in reach is the branch target of its field (42_control_transfer R153). -/
theorem branchTarget_branchField {a label : Word} (h : branchReaches a label = true) :
    branchTarget (a + 8#32) (branchField a label) = label := by
  have hpc : a + 8#32 = a + 4#32 + 4#32 := by rw [BitVec.add_assoc]; rfl
  have hlabel := add_toNat_emod (a + 4#32) (label - (a + 4#32))
  rw [add_sub_cancel] at hlabel
  have htarget := branchTarget_advanced_toNat (a + 4#32) (branchField a label)
  rw [branchField_toInt h, ← hlabel, ← hpc] at htarget
  exact BitVec.eq_of_toNat_eq (Int.ofNat_inj.mp htarget)

/-- Settles O58: the assembled fields give back the addresses they were made from. -/
theorem assembledTransfersReachTarget : Obligations.AssembledTransfersReachTarget := by
  unfold Obligations.AssembledTransfersReachTarget
  intro a target s hpc
  refine ⟨fun hreach => ⟨_, exec_j _ s, ?jump⟩, fun hreach rs rt hne => ⟨_, exec_bne_of_ne _ hne, ?branch⟩⟩
  case jump => rw [State.jump_pc, hpc, jumpTarget_jumpField hreach]
  case branch => rw [State.jump_pc, hpc, branchTarget_branchField hreach]

/-! ### Constants -/

/-- A constant of 16 bits is its own zero-extended low half. -/
theorem zext16_low {v : Word} (h : v.toNat < 0x10000) : zext16 (v.extractLsb' 0 16) = v := by
  apply BitVec.eq_of_toNat_eq
  rw [zext16_toNat, slice_toNat]
  omega

/-- A negative constant of 16 signed bits is its own sign-extended low half. -/
theorem sext16_low {v : Word} (h : -0x8000 ≤ v.toInt ∧ v.toInt < 0) : sext16 (v.extractLsb' 0 16) = v := by
  apply BitVec.eq_of_toInt_eq
  rw [sext16_toInt, half_toInt, slice_toNat]
  rw [BitVec.toInt_eq_toNat_cond] at h ⊢
  split at h <;> split <;> omega

/-- Any constant is its upper half moved up, joined with its low half. -/
theorem upperImm_or_low (v : Word) : upperImm (v.extractLsb' 16 16) ||| zext16 (v.extractLsb' 0 16) = v := by
  apply BitVec.eq_of_getLsbD_eq
  intro k hk
  rw [BitVec.getLsbD_or, zext16_getLsbD _ hk, upperImm, BitVec.getLsbD_shiftLeft]
  by_cases hlow : k < 16
  · simp [hlow]
  · have hhalf : k - 16 < 16 := by omega
    rw [zext16_getLsbD _ (by omega)]
    simp [hlow, hk, hhalf, Nat.add_sub_cancel' (Nat.not_lt.mp hlow)]

/-- What is read after one staged write, published. -/
theorem State.x_stage_publish (s : State) (d : Reg) (v : Word) (r : Reg) :
    (s.stage d v).publish.x r = if r = d ∧ d ≠ 0#5 then v else RegFile.read s.shadow r := by
  rw [State.x_publish, State.stage_shadow, RegFile.read_write]

section Constants
variable {s : State} {rt : Reg} {v : Word} (hrt : rt ≠ 0#5) (hs : s.shadow = s.regs)
include hrt hs

/-- One instruction that stages `v` in `rt` loads it and changes no other register. -/
theorem execList_one_loads {i : Instr} (hi : exec i s = .next (s.stage rt v)) :
    ∃ t, execList [i] s = .next t ∧ t.x rt = v ∧ ∀ r : Reg, r ≠ rt → t.x r = s.x r := by
  refine ⟨(s.stage rt v).publish, by simp only [execList, hi], ?_, fun r hr => ?_⟩
  · rw [State.x_stage_publish, if_pos ⟨rfl, hrt⟩]
  · rw [State.x_stage_publish, if_neg (fun h => hr h.1), hs, State.x]

/-- LUI and ORI load any constant: the ORI reads the upper half that the LUI has published. -/
theorem execList_loadLong_loads :
    ∃ t, execList (loadLong rt v) s = .next t ∧ t.x rt = v ∧ ∀ r : Reg, r ≠ rt → t.x r = s.x r := by
  have hori : exec (.ori rt rt (v.extractLsb' 0 16)) (s.stage rt (upperImm (v.extractLsb' 16 16))).publish
      = .next ((s.stage rt (upperImm (v.extractLsb' 16 16))).publish.stage rt v) := by
    rw [exec_ori, State.x_stage_publish, if_pos ⟨rfl, hrt⟩, upperImm_or_low]
  obtain ⟨t, ht, hrt', hother⟩ := execList_one_loads hrt rfl hori
  refine ⟨t, ht, hrt', fun r hr => ?_⟩
  rw [hother r hr, State.x_stage_publish, if_neg (fun h => hr h.1), hs, State.x]

end Constants

/-- Settles O59: the three shapes of the expansion. -/
theorem constantsAreLoaded : Obligations.ConstantsAreLoaded := by
  unfold Obligations.ConstantsAreLoaded
  intro a v rt s hrt hs
  simp only [List.forall_mem_cons]
  refine ⟨?li, execList_loadLong_loads hrt hs, List.forall_mem_nil _⟩
  case li =>
    rw [Asm.assemble]
    split_ifs with hori haddiu
    · apply execList_one_loads hrt hs
      rw [exec_ori, State.x_zero, BitVec.zero_or, zext16_low hori]
    · apply execList_one_loads hrt hs
      rw [exec_addiu, State.x_zero, BitVec.zero_add, sext16_low haddiu]
    · exact execList_loadLong_loads hrt hs

end Sys2Proof.Machine
end
